-- ==== Sys2Proof/Word.lean ====
section
/-! DEFINITION. The block's two word types (00_scope.md R7, R8). -/

namespace Sys2Proof

/-- A 32-bit register or command word (00_scope.md R7). -/
abbrev Word := BitVec 32

/-- A byte of a stream, 0..255 (00_scope.md R8). -/
abbrev Byte := BitVec 8

end Sys2Proof
end

