-- ==== Sys2Proof/Config.lean ====
section
/-! DEFINITION. What an implementation of the block fixes: the constants of 00_scope.md R5, the
parameters of R6, and the free value an unwritten IBUF byte reads as. -/

namespace Sys2Proof

/-- POLY, the reflected CRC-32 polynomial (00_scope.md R5, 41_crc.md R120). -/
def Config.poly : Word := 0xEDB88320

/-- CRC_INIT, the initial accumulator (R5, R120). -/
def Config.crcInit : Word := 0xFFFFFFFF

/-- CRC_XOROUT, the final XOR (R5, R120). -/
def Config.crcXorOut : Word := 0xFFFFFFFF

/-- FRAME_OVERHEAD: length field 4, type 4, CRC trailer 4 bytes (R5, 42_frame.md R141). -/
def Config.frameOverhead : Nat := 12

/-- LEN_LIMIT: a declared length N must satisfy N < 2^31 (R5, R142; 90_conflicts.md C2). -/
def Config.lenLimit : Nat := 2 ^ 31

/-- TYPE_BYTES: bytes of a chunk-type code (R5). -/
def Config.typeBytes : Nat := 4

/-- The identification constant, "PNGC" read big-endian (10_state.md R26). -/
def Config.idWord : Word := 0x504E4743

/-- P_RESET_KIND (00_scope.md R6): how the reset input is sampled. The untimed model cannot observe
it (70_reset_and_hazards.md R240). -/
inductive ResetKind where
  | synchronous
  | asynchronous
  deriving DecidableEq, Repr

/-- The implementation parameters of 00_scope.md R6. P_IBUF_SIZE is 32 bits wide because CFG reads it
(10_state.md R27), which also gives its upper bound 2^32 − 1. DESIGN CHOICE (log 1, log 8, log 9). -/
structure Params where
  /-- P_IBUF_SIZE: bytes in IBUF. -/
  ibufSize : Word
  /-- P_REG_BASE: host address of register offset 0x00. -/
  regBase : Nat
  /-- P_IBUF_HOST_BASE: host address of IBUF byte 0. -/
  ibufHostBase : Nat
  /-- P_LATENCY: time a command takes; no rule depends on it (R250). -/
  latency : Nat
  /-- P_RESET_KIND. -/
  resetKind : ResetKind
  deriving DecidableEq, Repr

/-- The parameters State.reset is built with: the vectors' P_IBUF_SIZE = 4096 (R6) and, for the
parameters no rule's outcome depends on, plain legal values. DESIGN CHOICE (log 1): no statement
rests on these values. -/
def Params.vectors : Params :=
  ⟨4096, 0, 0x100, 1, .synchronous⟩

/-- FREE VALUE: what IBUF offset `k` reads as while its written-mark is 0, at draw `n` (20_memory.md
R61, R62; 93_implementation_defined.md I1, I10 "any value"). Nothing constrains it. DESIGN CHOICE
(log 4, log 5). -/
opaque Config.unwrittenByte (n k : Nat) : Byte

end Sys2Proof
end

