-- ==== Sys2Proof/Syntax.lean ====
section
/-! DEFINITION. The block's commands, one constructor per row of spec/opcode_table.json (30_encoding.md
R82). No command carries an operand field (R83). -/

namespace Sys2Proof

/-- A legal command (30_encoding.md R82, R86: "Every legal command is one of the 11 words"). -/
inductive Instr where
  | nop
  | clear
  | typeCheck
  | typeParse
  | crcInit
  | crcByte
  | crcBuf
  | slice
  | decode
  | next
  | construct
  deriving DecidableEq, Repr

end Sys2Proof
end

