-- ==== Sys2Proof/WellFormed.lean ====
section
/-! DEFINITION. Well-formedness. A command has no operand field, so every Instr is well formed
(30_encoding.md R83, R86). What can be ill formed is a set of parameters (00_scope.md R6). -/

namespace Sys2Proof

/-- Every command is well formed: it has no field to check (30_encoding.md R83). -/
def Instr.wellFormed : Instr → Bool
  | .nop | .clear | .typeCheck | .typeParse | .crcInit | .crcByte | .crcBuf
  | .slice | .decode | .next | .construct => true

/-- P_IBUF_SIZE holds at least one empty frame: 12 ≤ P_IBUF_SIZE (00_scope.md R6). -/
def Params.ibufSizeOk (p : Params) : Bool := decide (12 ≤ p.ibufSize.toNat)

/-- P_REG_BASE is aligned to 256 (00_scope.md R6). -/
def Params.regBaseOk (p : Params) : Bool := p.regBase % 256 == 0

/-- P_LATENCY is a positive count (00_scope.md R6). -/
def Params.latencyOk (p : Params) : Bool := decide (0 < p.latency)

/-- The constraints of 00_scope.md R6. -/
def Params.wellFormed (p : Params) : Bool := p.ibufSizeOk && p.regBaseOk && p.latencyOk

end Sys2Proof
end

