-- ==== Sys2Proof/Decode.lean ====
section
/-! DEFINITION. The command decoder and encoder (30_encoding.md R80 to R86). -/

namespace Sys2Proof

/-- Why a word is illegal: the two kinds of 30_encoding.md R85. -/
inductive DecodeReject where
  /-- RSVD ≠ 0: some bit of 31:8 is set. -/
  | reservedBits
  /-- RSVD = 0 and OPC is not in the map of R82. -/
  | unmappedOpc
  deriving DecidableEq, Repr

/-- OPC, bits 7:0 of a command word (R80). -/
def opcField (w : Word) : Byte := w.extractLsb' 0 8

/-- RSVD, bits 31:8 of a command word (R80). -/
def rsvdField (w : Word) : BitVec 24 := w.extractLsb' 8 24

/-- The opcode map (30_encoding.md R82), OPC by OPC. -/
def opcodeMap : List (Byte × Instr) :=
  [(0x00, .nop), (0x01, .clear),
   (0x10, .typeCheck), (0x11, .typeParse),
   (0x20, .crcInit), (0x21, .crcByte), (0x22, .crcBuf),
   (0x30, .slice), (0x31, .decode), (0x32, .next), (0x33, .construct)]

/-- The map row whose OPC is `o`, if there is one (R81). -/
def lookupOpc (o : Byte) : List (Byte × Instr) → Option Instr
  | [] => none
  | (o', i) :: rows => if o = o' then some i else lookupOpc o rows

/-- Decode a command word, total on all 32-bit words, rejecting by name (30_encoding.md R81, R85). -/
def decode (w : Word) : Except DecodeReject Instr :=
  if rsvdField w ≠ 0 then .error .reservedBits
  else match lookupOpc (opcField w) opcodeMap with
    | some i => .ok i
    | none => .error .unmappedOpc

/-- The command's OPC (30_encoding.md R82, column OPC). -/
def opcodeOf : Instr → Byte
  | .nop => 0x00
  | .clear => 0x01
  | .typeCheck => 0x10
  | .typeParse => 0x11
  | .crcInit => 0x20
  | .crcByte => 0x21
  | .crcBuf => 0x22
  | .slice => 0x30
  | .decode => 0x31
  | .next => 0x32
  | .construct => 0x33

/-- The command's word: its OPC with RSVD = 0 (30_encoding.md R82, column word). -/
def encode (i : Instr) : Word := 0#24 ++ opcodeOf i

/-- The instruction the decoder reads from the table's bits `w` of a row of `nbits` bits: one 32-bit
command word, bits above `nbits` zero. A number of more than 32 bits is no command word (R80, R86). -/
def decodeTableWord (nbits w : Nat) : Option Instr :=
  let v := w % 2 ^ nbits
  if v < 2 ^ 32 then (decode (BitVec.ofNat 32 v)).toOption else none

end Sys2Proof
end

