-- ==== Sys2Proof/Machine/State.lean ====
section
/-! DEFINITION. The machine's state (00_scope.md R13, 10_state.md R20), its value after reset, and the
host's accesses. -/

namespace Sys2Proof.Machine

/-- The stored fields of STATUS (10_state.md R29). BUSY is 0 between steps (R30) and the four property
bits are computed from TYPE on each read (R36), so none of them is stored. -/
structure Status where
  /-- OK: the last command succeeded (R31). -/
  ok : Bool
  /-- ERR: the last command failed (R31). -/
  err : Bool
  /-- ERR_STICKY: some command failed since CLEAR or reset (R32). -/
  errSticky : Bool
  /-- EOS: the last command was a NEXT on an empty window (R33). -/
  eos : Bool
  /-- CRC_MATCH: the last command was a DECODE or NEXT that decoded a record (R34). -/
  crcMatch : Bool
  /-- TYPE_VALID: TYPE passed the letter test (R35). -/
  typeValid : Bool
  deriving DecidableEq, Repr

/-- The named registers of the map in 10_state.md R23. -/
inductive Reg where
  | id | cfg | cmd | status | base | avail | din | type | acc | crcRes | len | span
  | crcStored | crcCalc | dataOff | err | errInfo0Lo | errInfo0Hi | errInfo1
  deriving DecidableEq, Repr

/-- Where a host access goes: a register offset from P_REG_BASE or an IBUF offset (30_encoding.md R89:
"REG+offset" and "IBUF+k"). -/
inductive Target where
  | reg (offset : Nat)
  | ibuf (offset : Nat)
  deriving DecidableEq, Repr

/-- One action of the host (00_scope.md R13). `bits` is the access width; an access uses the low `bits`
bits of `data`. DESIGN CHOICE (log 2, log 14). -/
inductive HostAction where
  | write (t : Target) (bits : Nat) (data : BitVec 64)
  | read (t : Target) (bits : Nat)
  | reset
  deriving DecidableEq, Repr

/-- What a host read returned (30_encoding.md R87, R89). DESIGN CHOICE (log 3). -/
structure Observation where
  target : Target
  data : Word
  deriving DecidableEq, Repr

/-- IBUF's written bytes: a list of (offset, byte), offsets strictly rising. An offset is listed exactly
when its written-mark is 1 (20_memory.md R61), so an unlisted offset reads as no value and no entry is
redundant. -/
abbrev Memory := List Host.Cell

/-- The state of the machine (00_scope.md R13, 10_state.md R20). -/
structure State where
  /-- The parameters (00_scope.md R6). No step changes them. -/
  params : Params
  /-- STATUS (10_state.md R29). -/
  status : Status
  /-- BASE (R37). -/
  base : Word
  /-- AVAIL (R38). -/
  avail : Word
  /-- DIN, whose bits 31:8 do not exist (R39). -/
  din : Byte
  /-- TYPE (R40). -/
  typeCode : Word
  /-- ACC (R41). -/
  acc : Word
  /-- LEN (R43). -/
  len : Word
  /-- SPAN (R44). -/
  span : Word
  /-- CRC_STORED (R45). -/
  crcStored : Word
  /-- CRC_CALC (R46). -/
  crcCalc : Word
  /-- DATA_OFF (R47). -/
  dataOff : Word
  /-- ERR (R48). -/
  errReg : Word
  /-- ERR_INFO0 (R49). -/
  errInfo0 : BitVec 64
  /-- ERR_INFO1 (R50). -/
  errInfo1 : Word
  /-- IBUF and its written-marks (20_memory.md R61). -/
  ibuf : Memory
  /-- The model-only fault flag (60_exceptions.md R219). -/
  faulted : Bool
  /-- The model's own: which draw of the free value an unwritten byte reads as (log 5). -/
  draws : Nat
  /-- The model's own: host actions not yet performed, oldest first (log 2). -/
  pending : List HostAction
  /-- The model's own: what host reads returned, newest first (log 3). -/
  observed : List Observation
  deriving DecidableEq, Repr

/-- Reasons the machine stops with a fault: none. The spec's model faults (60_exceptions.md R219) are
recorded in `State.faulted` and the machine goes on (log 11). Safe. -/
inductive Fault where
  deriving DecidableEq, Repr

/-- Reasons a step has no meaning. -/
inductive Refusal where
  /-- Raised by an arm of exec whose instruction has no meaning yet; no arm is left so. Safe. -/
  | notModelled (mnemonic : String)
  deriving DecidableEq, Repr

/-- The machine after power-on with parameters `p` (10_state.md R57, 70_reset_and_hazards.md R240, R241):
the registers at the values of R23, nothing written in IBUF, the fault flag at the 0 it starts with. -/
def State.powerOn (p : Params) : State where
  params := p
  status := ⟨false, false, false, false, false, false⟩
  base := 0
  avail := 0
  din := 0
  typeCode := 0
  acc := 0xFFFFFFFF
  len := 0
  span := 0
  crcStored := 0
  crcCalc := 0
  dataOff := 0
  errReg := 0
  errInfo0 := 0
  errInfo1 := 0
  ibuf := []
  faulted := false
  draws := 0
  pending := []
  observed := []

/-- The machine right after reset, for the parameters the vectors take (log 1). -/
def State.reset : State := State.powerOn Params.vectors

end Sys2Proof.Machine
end

