-- ==== Sys2Proof/Machine/Operands.lean ====
section
/-! DEFINITION. Operand forms: byte sequences and their big-endian values, type codes and the letter
test, the register map. -/

namespace Sys2Proof.Machine

/-- be32(s): the big-endian value of a byte sequence, `s[0]·2^24 + s[1]·2^16 + s[2]·2^8 + s[3]` for four
bytes (00_scope.md R10, 20_memory.md R64). -/
def be32 (s : List Byte) : Nat := s.foldl (fun v b => v * 256 + b.toNat) 0

/-- bytes_be32(v): the 4 bytes whose be32 is v, for v < 2^32 (00_scope.md R10). -/
def bytesBe32 (v : Nat) : List Byte :=
  [BitVec.ofNat 8 (v / 2 ^ 24), BitVec.ofNat 8 (v / 2 ^ 16), BitVec.ofNat 8 (v / 2 ^ 8), BitVec.ofNat 8 v]

/-- TypeBytes(t): the 4 bytes of a TYPE register value, byte 0 at bits 31:24 (10_state.md R40). -/
def typeBytes (t : Word) : List Byte := bytesBe32 t.toNat

/-- IsLetter(b): 'A'..'Z' or 'a'..'z' (40_type.md R100). -/
def isLetter (b : Byte) : Bool :=
  (decide (65 ≤ b.toNat) && decide (b.toNat ≤ 90)) || (decide (97 ≤ b.toNat) && decide (b.toNat ≤ 122))

/-- The scan of TypeScan from index `i` on: the first byte that is not a letter, with its index. -/
def typeScanFrom (i : Nat) : List Byte → Option (Nat × Byte)
  | [] => none
  | b :: t => if isLetter b then typeScanFrom (i + 1) t else some (i, b)

/-- TypeScan(t): `some (i, t[i])` for the first non-letter (the rule's `bad`), `none` for its `ok`
(40_type.md R101). -/
def typeScan (t : List Byte) : Option (Nat × Byte) := typeScanFrom 0 t

/-- The register map: offsets of 10_state.md R23. -/
def regOffset : Reg → Nat
  | .id => 0x00
  | .cfg => 0x04
  | .cmd => 0x08
  | .status => 0x0C
  | .base => 0x10
  | .avail => 0x14
  | .din => 0x18
  | .type => 0x1C
  | .acc => 0x20
  | .crcRes => 0x24
  | .len => 0x28
  | .span => 0x2C
  | .crcStored => 0x30
  | .crcCalc => 0x34
  | .dataOff => 0x38
  | .err => 0x3C
  | .errInfo0Lo => 0x40
  | .errInfo0Hi => 0x44
  | .errInfo1 => 0x48

/-- The registers in the order of 10_state.md R23. -/
def allRegs : List Reg :=
  [.id, .cfg, .cmd, .status, .base, .avail, .din, .type, .acc, .crcRes, .len, .span,
   .crcStored, .crcCalc, .dataOff, .err, .errInfo0Lo, .errInfo0Hi, .errInfo1]

/-- The first register of a list that stands at offset `o`. -/
def findReg (o : Nat) : List Reg → Option Reg
  | [] => none
  | r :: rs => if regOffset r = o then some r else findReg o rs

/-- The register at offset `o`; `none` for a reserved offset (10_state.md R51). -/
def regAt (o : Nat) : Option Reg := findReg o allRegs

/-- The host address of an access target (30_encoding.md R87, 20_memory.md R60). -/
def Target.hostAddr (p : Params) : Target → Nat
  | .reg o => p.regBase + o
  | .ibuf k => p.ibufHostBase + k

end Sys2Proof.Machine
end

