-- ==== Sys2Proof/Machine/Flags.lean ====
section
/-! DEFINITION. STATUS and ERR as words: the property bits of a type code, the STATUS read, the ERR
layout and its fields. -/

namespace Sys2Proof.Machine

/-- CRITICAL = not x[TYPE][29] (40_type.md R102, 10_state.md R36). -/
def critical (t : Word) : Bool := !t.getLsbD 29

/-- PUBLIC = not x[TYPE][21] (R102, R36). -/
def isPublic (t : Word) : Bool := !t.getLsbD 21

/-- RESERVED_FLAG = x[TYPE][13], the raw bit with the source's §3 polarity (R102, R36; 90_conflicts.md C3). -/
def reservedFlag (t : Word) : Bool := t.getLsbD 13

/-- SAFE_TO_COPY = x[TYPE][5] (R102, R36). -/
def safeToCopy (t : Word) : Bool := t.getLsbD 5

/-- The STATUS word a read returns (10_state.md R29): bits 31:11 zero, then SAFE_TO_COPY,
RESERVED_FLAG, PUBLIC, CRITICAL, TYPE_VALID, CRC_MATCH, EOS, ERR_STICKY, ERR, OK, and BUSY = 0 (R30). -/
def statusWord (f : Status) (t : Word) : Word :=
  0#21 ++ BitVec.ofBool (safeToCopy t) ++ BitVec.ofBool (reservedFlag t) ++ BitVec.ofBool (isPublic t)
    ++ BitVec.ofBool (critical t) ++ BitVec.ofBool f.typeValid ++ BitVec.ofBool f.crcMatch
    ++ BitVec.ofBool f.eos ++ BitVec.ofBool f.errSticky ++ BitVec.ofBool f.err ++ BitVec.ofBool f.ok ++ 0#1

/-- The error kinds a command can raise (60_exceptions.md R201). -/
inductive ErrKind where
  | invalidLength
  | invalidCharacter
  | notEnoughBytes
  | lengthTooLarge
  | remainingBytes
  | invalidCrc
  | illegalCmd
  | badWindow
  deriving DecidableEq, Repr

/-- The KIND code (R201, column KIND). -/
def kindCode : ErrKind → Byte
  | .invalidLength => 0x01
  | .invalidCharacter => 0x02
  | .notEnoughBytes => 0x03
  | .lengthTooLarge => 0x04
  | .remainingBytes => 0x05
  | .invalidCrc => 0x06
  | .illegalCmd => 0x07
  | .badWindow => 0x08

/-- A command error before it is recorded: `KIND(info0, info1)` with its options (R202). The payloads
are exact numbers (00_scope.md R9), narrowed only when they are stored. -/
structure CmdError where
  kind : ErrKind
  info0 : Nat
  info1 : Nat
  wrapped : Bool := false
  sub : Bool := false
  stage : BitVec 2 := 0
  clearTv : Bool := false
  deriving DecidableEq, Repr

/-- ERR's layout (10_state.md R48): 31:24 zero, OPC 23:16, 15:12 zero, STAGE 11:10, SUB 9, WRAPPED 8,
KIND 7:0. -/
def packErr (opc kind : Byte) (wrapped sub : Bool) (stage : BitVec 2) : Word :=
  0#8 ++ opc ++ 0#4 ++ stage ++ BitVec.ofBool sub ++ BitVec.ofBool wrapped ++ kind

/-- ERR as a failure of command `opc` writes it (60_exceptions.md R202). -/
def errWord (opc : Byte) (e : CmdError) : Word :=
  packErr opc (kindCode e.kind) e.wrapped e.sub e.stage

/-- ERR.KIND (R48). -/
def errKindField (v : Word) : Byte := v.extractLsb' 0 8

/-- ERR.WRAPPED (R48). -/
def errWrappedField (v : Word) : Bool := v.getLsbD 8

/-- ERR.SUB (R48). -/
def errSubField (v : Word) : Bool := v.getLsbD 9

/-- ERR.STAGE (R48). -/
def errStageField (v : Word) : BitVec 2 := v.extractLsb' 10 2

/-- ERR.OPC (R48). -/
def errOpcField (v : Word) : Byte := v.extractLsb' 16 8

/-- STATUS after a failure (60_exceptions.md R202). -/
def statusFailed (clearTv : Bool) (f : Status) : Status :=
  { f with ok := false, err := true, errSticky := true, eos := false, crcMatch := false,
           typeValid := !clearTv && f.typeValid }

/-- The options of `finish` (60_exceptions.md R203). -/
structure FinishOpts where
  eos : Bool := false
  crcMatch : Bool := false
  setTv : Bool := false
  deriving DecidableEq, Repr

/-- STATUS after a success (60_exceptions.md R203). -/
def statusFinished (o : FinishOpts) (f : Status) : Status :=
  { f with ok := true, err := false, eos := o.eos, crcMatch := o.crcMatch,
           typeValid := o.setTv || f.typeValid }

end Sys2Proof.Machine
end

