-- ==== Sys2Proof/Machine/Ops.lean ====
section
/-! DEFINITION. The shared operations: IBUF reads and writes, the window check, the failure and success
procedures (the block's whole "exception" mechanism, 60_exceptions.md R200), register reads and writes. -/

namespace Sys2Proof.Machine

/-- The byte listed at offset `k`; `none` when its written-mark is 0 (20_memory.md R61). -/
def Memory.read (m : Memory) (k : Nat) : Option Byte :=
  match m with
  | [] => none
  | (k', b) :: rest => if k = k' then some b else Memory.read rest k

/-- The memory with byte `b` at offset `k` and its mark set (20_memory.md R61, MemWrite). -/
def Memory.write (m : Memory) (k : Nat) (b : Byte) : Memory :=
  match m with
  | [] => [(k, b)]
  | (k', b') :: rest =>
    if k < k' then (k, b) :: (k', b') :: rest
    else if k = k' then (k, b) :: rest
    else (k', b') :: Memory.write rest k b

/-- The canonical form: offsets strictly rising. An unlisted offset reads as no value, so no entry can
repeat it. -/
abbrev Memory.wf (m : Memory) : Prop := m.Pairwise (fun x y => x.1 < y.1)

/-- The byte a read of offset `k` finds: the written byte, or the free value when the mark is 0
(20_memory.md R62: "The hardware computes a result from whatever the cells hold"; log 4). -/
def State.byteAt (s : State) (k : Nat) : Byte :=
  (s.ibuf.read k).getD (Config.unwrittenByte s.draws k)

/-- MemRead(k, n): the bytes IBUF[k], …, IBUF[k+n−1] (20_memory.md R62). -/
def State.memRead (s : State) (k n : Nat) : List Byte := (List.range' k n).map s.byteAt

/-- Whether MemRead(k, n) touches a byte whose written-mark is 0 (20_memory.md R62). -/
def State.unwritten (s : State) (k n : Nat) : Bool :=
  (List.range' k n).any (fun j => (s.ibuf.read j).isNone)

/-- Record FAULT_UNWRITTEN_IBUF when `u` (60_exceptions.md R219): the flag is set, and the next draw of
the free value is a fresh one (log 5). -/
def State.noteUnwritten (u : Bool) (s : State) : State :=
  { s with faulted := u || s.faulted, draws := if u then s.draws + 1 else s.draws }

/-- WindowCheck(): BAD_WINDOW(BASE, AVAIL) when the exact sum exceeds P_IBUF_SIZE (20_memory.md R63). -/
def State.windowCheck (s : State) : Option CmdError :=
  if s.base.toNat + s.avail.toNat > s.params.ibufSize.toNat then
    some { kind := .badWindow, info0 := s.base.toNat, info1 := s.avail.toNat }
  else none

/-- The failure procedure `raise` (60_exceptions.md R202), on the state from before the command: every
staged write is discarded; STATUS, ERR, ERR_INFO0 and ERR_INFO1 are written and nothing else. -/
def State.raise (opc : Byte) (e : CmdError) (s : State) : State :=
  { s with status := statusFailed e.clearTv s.status
           errReg := errWord opc e
           errInfo0 := BitVec.ofNat 64 e.info0
           errInfo1 := BitVec.ofNat 32 e.info1 }

/-- The success procedure `finish` (60_exceptions.md R203): the staged writes are committed and STATUS is
written. -/
def State.finish (o : FinishOpts) (staged : State) : State :=
  { staged with status := statusFinished o staged.status }

/-- How a command ends: whether it read an unwritten byte, and either its error or the options and the
staged writes of its success (00_scope.md R12). -/
structure CmdResult where
  unwritten : Bool := false
  result : Except CmdError (FinishOpts × State)

/-- Complete command `opc`, issued in state `s`: raise its error or finish, and record an unwritten read. -/
def State.complete (opc : Byte) (s : State) (r : CmdResult) : State :=
  State.noteUnwritten r.unwritten
    (match r.result with
     | .error e => State.raise opc e s
     | .ok (o, staged) => State.finish o staged)

/-- A register's value as a host read returns it (10_state.md R24, R26 to R50). -/
def State.readReg (s : State) : Reg → Word
  | .id => Config.idWord
  | .cfg => s.params.ibufSize
  | .cmd => 0
  | .status => statusWord s.status s.typeCode
  | .base => s.base
  | .avail => s.avail
  | .din => s.din.setWidth 32
  | .type => s.typeCode
  | .acc => s.acc
  | .crcRes => s.acc ^^^ 0xFFFFFFFF
  | .len => s.len
  | .span => s.span
  | .crcStored => s.crcStored
  | .crcCalc => s.crcCalc
  | .dataOff => s.dataOff
  | .err => s.errReg
  | .errInfo0Lo => s.errInfo0.extractLsb' 0 32
  | .errInfo0Hi => s.errInfo0.extractLsb' 32 32
  | .errInfo1 => s.errInfo1

/-- What a host read of register offset `o` returns: 0 at a reserved offset (10_state.md R51). -/
def State.readOffset (s : State) (o : Nat) : Word :=
  match regAt o with
  | some r => s.readReg r
  | none => 0

/-- A host write to a register other than CMD (10_state.md R25): BASE, AVAIL, TYPE, ACC take the value,
DIN its low byte, TYPE also clears TYPE_VALID, and the RO registers ignore it. -/
def State.writeReg (s : State) (v : Word) : Reg → State
  | .base => { s with base := v }
  | .avail => { s with avail := v }
  | .din => { s with din := v.setWidth 8 }
  | .type => { s with typeCode := v, status := { s.status with typeValid := false } }
  | .acc => { s with acc := v }
  | .id | .cfg | .cmd | .status | .crcRes | .len | .span | .crcStored | .crcCalc | .dataOff
  | .err | .errInfo0Lo | .errInfo0Hi | .errInfo1 => s

end Sys2Proof.Machine
end

