-- ==== Sys2Proof/Machine/Control.lean ====
section
/-! DEFINITION. The control commands NOP and CLEAR (43_control.md R180, R181). -/

namespace Sys2Proof.Machine

/-- NOP: finish (43_control.md R180). -/
def execNop (s : State) : Host.Outcome State Fault Refusal :=
  .next (State.complete (opcodeOf .nop) s { result := .ok ({}, s) })

/-- CLEAR: stage ERR, ERR_INFO0, ERR_INFO1 and ERR_STICKY at 0, then finish (43_control.md R181). -/
def execClear (s : State) : Host.Outcome State Fault Refusal :=
  .next (State.complete (opcodeOf .clear) s
    { result := .ok ({}, { s with errReg := 0, errInfo0 := 0, errInfo1 := 0,
                                  status := { s.status with errSticky := false } }) })

end Sys2Proof.Machine
end

