-- ==== Sys2Proof/Machine/Crc.lean ====
section
/-! DEFINITION. The CRC-32 function and the commands CRC_INIT, CRC_BYTE and CRC_BUF (41_crc.md). -/

namespace Sys2Proof.Machine

/-- One bit-shift iteration of the table construction (41_crc.md R121; log 10). -/
def crcStep (c : Word) : Word :=
  if c.getLsbD 0 then (c >>> 1) ^^^ Config.poly else c >>> 1

/-- `n` iterations of the construction step. -/
def crcSteps : Nat → Word → Word
  | 0, c => c
  | n + 1, c => crcSteps n (crcStep c)

/-- The CRC table ROM, Table[n] (41_crc.md R121, R128; 10_state.md R52): 8 iterations from n. -/
def crcTable (n : Byte) : Word := crcSteps 8 (n.setWidth 32)

/-- Upd(acc, b) = Table[(acc and 0xFF) xor b] xor (acc >> 8) (41_crc.md R122). -/
def crcUpd (acc : Word) (b : Byte) : Word := crcTable (acc.setWidth 8 ^^^ b) ^^^ (acc >>> 8)

/-- Fold(acc, s): Upd over the bytes of s in stream order (41_crc.md R122). -/
def crcFold (acc : Word) (s : List Byte) : Word := s.foldl crcUpd acc

/-- Checksum(s), on a private accumulator started at CRC_INIT (41_crc.md R123, 10_state.md R53). -/
def checksum (s : List Byte) : Word := crcFold Config.crcInit s ^^^ Config.crcXorOut

/-- CRC_INIT: ACC becomes 0xFFFFFFFF (41_crc.md R125). -/
def execCrcInit (s : State) : Host.Outcome State Fault Refusal :=
  .next (State.complete (opcodeOf .crcInit) s { result := .ok ({}, { s with acc := Config.crcInit }) })

/-- CRC_BYTE: fold DIN into ACC (41_crc.md R126). -/
def execCrcByte (s : State) : Host.Outcome State Fault Refusal :=
  .next (State.complete (opcodeOf .crcByte) s { result := .ok ({}, { s with acc := crcUpd s.acc s.din }) })

/-- CRC_BUF: window check, then fold the window into ACC (41_crc.md R127). -/
def crcBufResult (s : State) : CmdResult :=
  match s.windowCheck with
  | some e => { result := .error e }
  | none =>
    { unwritten := s.unwritten s.base.toNat s.avail.toNat
      result := .ok ({}, { s with acc := crcFold s.acc (s.memRead s.base.toNat s.avail.toNat) }) }

/-- CRC_BUF (41_crc.md R127). -/
def execCrcBuf (s : State) : Host.Outcome State Fault Refusal :=
  .next (State.complete (opcodeOf .crcBuf) s (crcBufResult s))

end Sys2Proof.Machine
end

