-- ==== Sys2Proof/Machine/Frame.lean ====
section
/-! DEFINITION. The chunk-record frame: SliceCore, DecodeCore, FrameImage, and the commands SLICE, DECODE,
NEXT and CONSTRUCT (42_frame.md). -/

namespace Sys2Proof.Machine

/-- The frame image of a record: length, type, data, CRC trailer (42_frame.md R149). -/
def frameImage (n : Nat) (t d : List Byte) (c : Word) : List Byte :=
  bytesBe32 n ++ t ++ d ++ bytesBe32 c.toNat

/-- S = 12 + N, exact (42_frame.md R141). -/
def spanOf (n : Nat) : Nat := Config.frameOverhead + n

/-- What a core function answers: whether it read an unwritten byte, and its error or its value. -/
structure CoreResult (α : Type) where
  unwritten : Bool := false
  result : Except CmdError α

/-- SliceCore(b, A) (42_frame.md R143): (N, S). The length limit is not applied. -/
def sliceCore (s : State) (b a : Nat) : CoreResult (Nat × Nat) :=
  if a < Config.frameOverhead then
    { result := .error { kind := .notEnoughBytes, info0 := a, info1 := Config.frameOverhead } }
  else
    let n := be32 (s.memRead b 4)
    { unwritten := s.unwritten b 4
      result :=
        if spanOf n > a then .error { kind := .lengthTooLarge, info0 := spanOf n, info1 := a }
        else .ok (n, spanOf n) }

/-- A decoded record: DecodeCore's (N, S, t, stored, calc) (42_frame.md R144). -/
structure FrameRecord where
  len : Nat
  span : Nat
  type : List Byte
  stored : Word
  computed : Word
  deriving DecidableEq, Repr

/-- DecodeCore's checks from the CRC on, for a window that is exactly one frame of `n` data bytes at `b`
(42_frame.md R144, steps 5 and 6). -/
def decodeBody (s : State) (b n : Nat) : Except CmdError FrameRecord :=
  let t := s.memRead (b + 4) 4
  let d := s.memRead (b + 8) n
  let stored := BitVec.ofNat 32 (be32 (s.memRead (b + 8 + n) 4))
  let computed := checksum (t ++ d)
  if stored ≠ computed then .error { kind := .invalidCrc, info0 := stored.toNat, info1 := computed.toNat }
  else match typeScan t with
    | some (i, c) => .error { kind := .invalidCharacter, info0 := i, info1 := c.toNat, wrapped := true }
    | none => .ok ⟨n, spanOf n, t, stored, computed⟩

/-- DecodeCore(b, A) (42_frame.md R144): the frame minimum, the length limit, short input, trailing bytes,
the CRC, the type letters, in this order. -/
def decodeCore (s : State) (b a : Nat) : CoreResult FrameRecord :=
  if a < Config.frameOverhead then
    { result := .error { kind := .notEnoughBytes, info0 := a, info1 := Config.frameOverhead } }
  else
    let n := be32 (s.memRead b 4)
    if n ≥ Config.lenLimit then
      { unwritten := s.unwritten b 4
        result := .error { kind := .lengthTooLarge, info0 := spanOf n, info1 := a, sub := true } }
    else if spanOf n > a then
      { unwritten := s.unwritten b 4
        result := .error { kind := .lengthTooLarge, info0 := spanOf n, info1 := a } }
    else if spanOf n < a then
      { unwritten := s.unwritten b 4
        result := .error { kind := .remainingBytes, info0 := a - spanOf n, info1 := 0 } }
    else
      { unwritten := s.unwritten b 4 || s.unwritten (b + 4) 4 || s.unwritten (b + 8) n
          || s.unwritten (b + 8 + n) 4
        result := decodeBody s b n }

/-- The result registers a decoded record at window start `b` stages (42_frame.md R146, R147). -/
def State.withRecord (s : State) (b : Nat) (r : FrameRecord) : State :=
  { s with len := BitVec.ofNat 32 r.len
           span := BitVec.ofNat 32 r.span
           typeCode := BitVec.ofNat 32 (be32 r.type)
           crcStored := r.stored
           crcCalc := r.computed
           dataOff := BitVec.ofNat 32 (b + 8) }

/-- SLICE (42_frame.md R145). -/
def sliceResult (s : State) : CmdResult :=
  match s.windowCheck with
  | some e => { result := .error e }
  | none =>
    let r := sliceCore s s.base.toNat s.avail.toNat
    { unwritten := r.unwritten
      result := match r.result with
        | .error e => .error e
        | .ok (n, sp) => .ok ({}, { s with len := BitVec.ofNat 32 n, span := BitVec.ofNat 32 sp }) }

/-- SLICE (42_frame.md R145). -/
def execSlice (s : State) : Host.Outcome State Fault Refusal :=
  .next (State.complete (opcodeOf .slice) s (sliceResult s))

/-- DECODE (42_frame.md R146). -/
def decodeResult (s : State) : CmdResult :=
  match s.windowCheck with
  | some e => { result := .error e }
  | none =>
    let r := decodeCore s s.base.toNat s.avail.toNat
    { unwritten := r.unwritten
      result := match r.result with
        | .error e => .error e
        | .ok f => .ok ({ crcMatch := true, setTv := true }, s.withRecord s.base.toNat f) }

/-- DECODE (42_frame.md R146). -/
def execDecode (s : State) : Host.Outcome State Fault Refusal :=
  .next (State.complete (opcodeOf .decode) s (decodeResult s))

/-- NEXT (42_frame.md R147): window check, end test, slice stage (STAGE 1), decode stage (STAGE 2) on exactly
the sliced span, then the advance of BASE and AVAIL. -/
def nextResult (s : State) : CmdResult :=
  match s.windowCheck with
  | some e => { result := .error e }
  | none =>
    let b := s.base.toNat
    let a := s.avail.toNat
    if a = 0 then { result := .ok ({ eos := true }, s) }
    else
      let r1 := sliceCore s b a
      match r1.result with
      | .error e => { unwritten := r1.unwritten, result := .error { e with stage := 1 } }
      | .ok (_, sp) =>
        let r2 := decodeCore s b sp
        { unwritten := r1.unwritten || r2.unwritten
          result := match r2.result with
            | .error e => .error { e with stage := 2 }
            | .ok f =>
              .ok ({ crcMatch := true, setTv := true },
                { s.withRecord b f with base := BitVec.ofNat 32 (b + f.span), avail := BitVec.ofNat 32 (a - f.span) }) }

/-- NEXT (42_frame.md R147). -/
def execNext (s : State) : Host.Outcome State Fault Refusal :=
  .next (State.complete (opcodeOf .next) s (nextResult s))

/-- CONSTRUCT (42_frame.md R148): window check, letter test on TYPE, length limit, then the CRC over the type
bytes and the window. -/
def constructResult (s : State) : CmdResult :=
  match s.windowCheck with
  | some e => { result := .error e }
  | none =>
    let b := s.base.toNat
    let a := s.avail.toNat
    let t := typeBytes s.typeCode
    match typeScan t with
    | some (i, c) =>
      { result := .error { kind := .invalidCharacter, info0 := i, info1 := c.toNat, wrapped := true, clearTv := true } }
    | none =>
      if a ≥ Config.lenLimit then
        { result := .error { kind := .lengthTooLarge, info0 := spanOf a, info1 := a, sub := true } }
      else
        { unwritten := s.unwritten b a
          result := .ok ({ setTv := true },
            { s with len := BitVec.ofNat 32 a, span := BitVec.ofNat 32 (spanOf a)
                     crcCalc := checksum (t ++ s.memRead b a), dataOff := BitVec.ofNat 32 b }) }

/-- CONSTRUCT (42_frame.md R148). -/
def execConstruct (s : State) : Host.Outcome State Fault Refusal :=
  .next (State.complete (opcodeOf .construct) s (constructResult s))

end Sys2Proof.Machine
end

