-- ==== Sys2Proof/Machine/TypeCode.lean ====
section
/-! DEFINITION. The chunk-type code commands TYPE_CHECK and TYPE_PARSE (40_type.md R103, R104). -/

namespace Sys2Proof.Machine

/-- TYPE_CHECK: the letter test on TYPE (40_type.md R103). -/
def typeCheckResult (s : State) : CmdResult :=
  match typeScan (typeBytes s.typeCode) with
  | some (i, b) =>
    { result := .error { kind := .invalidCharacter, info0 := i, info1 := b.toNat, clearTv := true } }
  | none => { result := .ok ({ setTv := true }, s) }

/-- TYPE_CHECK (40_type.md R103). -/
def execTypeCheck (s : State) : Host.Outcome State Fault Refusal :=
  .next (State.complete (opcodeOf .typeCheck) s (typeCheckResult s))

/-- TYPE_PARSE: window check, length 4, letter test on the window's bytes, in this order (40_type.md R104). -/
def typeParseResult (s : State) : CmdResult :=
  match s.windowCheck with
  | some e => { result := .error e }
  | none =>
    if s.avail.toNat ≠ Config.typeBytes then
      { result := .error { kind := .invalidLength, info0 := s.avail.toNat, info1 := 0 } }
    else
      let t := s.memRead s.base.toNat 4
      { unwritten := s.unwritten s.base.toNat 4
        result := match typeScan t with
          | some (i, b) => .error { kind := .invalidCharacter, info0 := i, info1 := b.toNat }
          | none => .ok ({ setTv := true }, { s with typeCode := BitVec.ofNat 32 (be32 t) }) }

/-- TYPE_PARSE (40_type.md R104). -/
def execTypeParse (s : State) : Host.Outcome State Fault Refusal :=
  .next (State.complete (opcodeOf .typeParse) s (typeParseResult s))

end Sys2Proof.Machine
end

