-- ==== Sys2Proof/Machine/Dispatch.lean ====
section
/-! DEFINITION. One arm per command (30_encoding.md R81: "run the rule of the map row"). -/

namespace Sys2Proof.Machine

def exec (i : Instr) (s : State) : Host.Outcome State Fault Refusal :=
  match i with
  | .nop => Sys2Proof.Machine.execNop s
  | .clear => Sys2Proof.Machine.execClear s
  | .typeCheck => Sys2Proof.Machine.execTypeCheck s
  | .typeParse => Sys2Proof.Machine.execTypeParse s
  | .crcInit => Sys2Proof.Machine.execCrcInit s
  | .crcByte => Sys2Proof.Machine.execCrcByte s
  | .crcBuf => Sys2Proof.Machine.execCrcBuf s
  | .slice => Sys2Proof.Machine.execSlice s
  | .decode => Sys2Proof.Machine.execDecode s
  | .next => Sys2Proof.Machine.execNext s
  | .construct => Sys2Proof.Machine.execConstruct s

end Sys2Proof.Machine
end

