-- ==== Sys2Proof/Machine/Bus.lean ====
section
/-! DEFINITION. The host's actions (00_scope.md R13): register writes and reads, IBUF byte writes and reads,
refused accesses, reset; and the issue of a command by a CMD write (30_encoding.md R81). -/

namespace Sys2Proof.Machine

/-- A register access the block permits: 32 bits at a multiple of 4 below 0x100 (20_memory.md R66). -/
def regAccessOk (o bits : Nat) : Bool := bits == 32 && o % 4 == 0 && decide (o < 0x100)

/-- An IBUF access the block permits: 1 byte below P_IBUF_SIZE (20_memory.md R66). -/
def ibufAccessOk (p : Params) (k bits : Nat) : Bool := bits == 8 && decide (k < p.ibufSize.toNat)

/-- REFUSED_ACCESS: the fault flag is set and nothing else changes (60_exceptions.md R219; log 6). -/
def State.refuseAccess (s : State) : State := { s with faulted := true }

/-- A host read's value is recorded as what the program observes (30_encoding.md R87; log 3). -/
def State.observe (s : State) (t : Target) (v : Word) : State :=
  { s with observed := ⟨t, v⟩ :: s.observed }

/-- An illegal word raises ILLEGAL_CMD(w, 0) with ERR.OPC = w[7:0] (43_control.md R182). -/
def illegalError (w : Word) : CmdError := { kind := .illegalCmd, info0 := w.toNat, info1 := 0 }

/-- Execute(w): a host write of w to CMD (30_encoding.md R81). -/
def executeWord (w : Word) (s : State) : Host.Outcome State Fault Refusal :=
  match decode w with
  | .ok i => exec i s
  | .error _ => .next (State.raise (opcField w) (illegalError w) s)

/-- A permitted 32-bit host write of `v` at register offset `o` (10_state.md R25). -/
def hostWriteReg (o : Nat) (v : Word) (s : State) : Host.Outcome State Fault Refusal :=
  match regAt o with
  | some .cmd => executeWord v s
  | some r => .next (s.writeReg v r)
  | none => .next s

/-- A permitted host read of IBUF offset `k` (20_memory.md R61): the byte is observed, and an unwritten byte is
a model fault. -/
def hostReadIbuf (k : Nat) (s : State) : State :=
  State.noteUnwritten (s.unwritten k 1) (s.observe (.ibuf k) ((s.byteAt k).setWidth 32))

/-- Reset (10_state.md R57, 70_reset_and_hazards.md R240): every register at its reset value, every
written-mark cleared; the fault flag is not changed, and unwritten bytes need not keep the values they had. -/
def hostReset (s : State) : State :=
  { State.powerOn s.params with
      faulted := s.faulted, draws := s.draws + 1, pending := s.pending, observed := s.observed }

/-- One host action, performed to completion (20_memory.md R71). -/
def performAction (a : HostAction) (s : State) : Host.Outcome State Fault Refusal :=
  match a with
  | .write (.reg o) bits data =>
    if regAccessOk o bits then hostWriteReg o (data.setWidth 32) s else .next s.refuseAccess
  | .write (.ibuf k) bits data =>
    if ibufAccessOk s.params k bits then .next { s with ibuf := s.ibuf.write k (data.setWidth 8) }
    else .next s.refuseAccess
  | .read (.reg o) bits =>
    if regAccessOk o bits then .next (s.observe (.reg o) (s.readOffset o)) else .next s.refuseAccess
  | .read (.ibuf k) bits =>
    if ibufAccessOk s.params k bits then .next (hostReadIbuf k s) else .next s.refuseAccess
  | .reset => .next (hostReset s)

/-- The host's oldest action that is not yet performed (20_memory.md R71: issue order); with none, the block
does nothing (00_scope.md R13: "the block needs no step of its own"; log 2). -/
def stepPending (s : State) : Host.Outcome State Fault Refusal :=
  match s.pending with
  | [] => .next s
  | a :: rest => performAction a { s with pending := rest }

/-- The CMD write that issues the word whose bits are `w`, bits above `nbits` zero (10_state.md R28). -/
def cmdWriteAction (nbits w : Nat) : HostAction :=
  .write (.reg (regOffset .cmd)) 32 (BitVec.ofNat 64 (w % 2 ^ nbits))

end Sys2Proof.Machine
end

