-- ==== Sys2Proof/Machine/Program.lean ====
section
/-! DEFINITION. Host notation: the program lines of 30_encoding.md R87, their bus transactions (R89) and the
pseudo-instructions of R88, each as the list of host actions it stands for. -/

namespace Sys2Proof.Machine

/-- `wr REG, v` (30_encoding.md R87). -/
def lineWr (r : Reg) (v : Word) : HostAction := .write (.reg (regOffset r)) 32 (v.setWidth 64)

/-- `rd REG` (R87). -/
def lineRd (r : Reg) : HostAction := .read (.reg (regOffset r)) 32

/-- `wb k, b` (R87). -/
def lineWb (k : Nat) (b : Byte) : HostAction := .write (.ibuf k) 8 (b.setWidth 64)

/-- `rb k` (R87). -/
def lineRb (k : Nat) : HostAction := .read (.ibuf k) 8

/-- `cmd MNEMONIC` (R87): a write of the command's word to CMD. -/
def lineCmd (i : Instr) : HostAction := lineWr .cmd (encode i)

/-- `load k, s` (R88). -/
def loadLines (k : Nat) : List Byte → List HostAction
  | [] => []
  | b :: t => lineWb k b :: loadLines (k + 1) t

/-- `window k, n` (R88). -/
def windowLines (k n : Word) : List HostAction := [lineWr .base k, lineWr .avail n]

/-- `settype t` (R88), the type given by its bytes. -/
def settypeLines (t : List Byte) : List HostAction := [lineWr .type (BitVec.ofNat 32 (be32 t))]

/-- `checksum k, n` (R88). -/
def checksumLines (k n : Word) : List HostAction :=
  windowLines k n ++ [lineCmd .crcInit, lineCmd .crcBuf, lineRd .crcRes]

/-- `decode k, n` (R88). -/
def decodeLines (k n : Word) : List HostAction := windowLines k n ++ [lineCmd .decode, lineRd .status]

/-- `construct t, k, n` (R88). -/
def constructLines (t : List Byte) (k n : Word) : List HostAction :=
  settypeLines t ++ windowLines k n ++ [lineCmd .construct, lineRd .status, lineRd .len, lineRd .crcCalc]

/-- `frame k, t, s` (R88): load the frame image; the host has the checksum from a prior `construct`. -/
def frameLines (k : Nat) (t s : List Byte) : List HostAction :=
  loadLines k (frameImage s.length t s (checksum (t ++ s)))

/-- The direction of a bus transaction (30_encoding.md R89). -/
inductive Direction where
  | write
  | read
  deriving DecidableEq, Repr

/-- A bus transaction: direction, target (REG+offset or IBUF+k) and data (30_encoding.md R89). The data is `none` only
for a refused read, which returns no value (log 6). -/
structure Transaction where
  direction : Direction
  target : Target
  data : Option (BitVec 64)
  deriving DecidableEq, Repr

/-- The data an access of `bits` bits carries: the low `bits` bits (30_encoding.md R87, log 14). -/
def accessData (bits : Nat) (d : BitVec 64) : BitVec 64 := BitVec.ofNat 64 (d.toNat % 2 ^ bits)

/-- The transaction of a host action that is an access; `v` is what it observes if it is a read (R87, R89). Reset is no
bus access (00_scope.md R13). -/
def transactionOf (v : Option Word) : HostAction → Option Transaction
  | .write t bits d => some ⟨.write, t, some (accessData bits d)⟩
  | .read t _ => some ⟨.read, t, v.map (fun w => w.setWidth 64)⟩
  | .reset => none

/-- The value the host observes between `s` and `t`, if it observes one (30_encoding.md R87 "the value is what the program
observes"; log 3). -/
def observedSince (s t : State) : Option Word :=
  if t.observed.length = s.observed.length then none else t.observed.head?.map (fun o => o.data)

/-- A program's encoding from state `s`: the sequence of its bus transactions, each read with the data its step observes
(30_encoding.md R89). -/
def programEncoding : List HostAction → State → List Transaction
  | [], _ => []
  | a :: rest, s =>
    match stepPending { s with pending := a :: rest } with
    | .next t => (transactionOf (observedSince s t) a).toList ++ programEncoding rest t
    | .fault _ => []
    | .refused _ => []

end Sys2Proof.Machine
end

