-- ==== Sys2Proof/Machine/Step.lean ====
section
/-! DEFINITION. One step of the machine: the host's next action, performed to completion (00_scope.md R12,
R13). A command runs inside the host's CMD write step. -/

namespace Sys2Proof.Machine

/-- One step (00_scope.md R13). -/
def step (s : State) : Host.Outcome State Fault Refusal := stepPending s

/-- `s` with the CMD write of word `w` as the host's very next action: the place a command comes from
(10_state.md R28, 20_memory.md R74; log 2). -/
def State.withFetchWord (s : State) (nbits w : Nat) : State :=
  { s with pending := cmdWriteAction nbits w :: s.pending }

end Sys2Proof.Machine
end

