-- ==== Sys2Proof/Safety.lean ====
section
/-! DEFINITION. The terms claims are stated in: safe and final states, what IBUF holds, letters, valid frames,
and the invariants every step keeps. -/

namespace Sys2Proof.Machine

/-- A safe run so far: no model fault is recorded (60_exceptions.md R219). -/
def State.Safe (s : State) : Prop := s.faulted = false

/-- A final state: the host has nothing more to perform and no model fault is recorded. 60_exceptions.md R219 says only
that a faulted run is never final; that an unfaulted state is final exactly when the queue is empty is the model's.
DESIGN CHOICE (log 17). -/
def State.Final (s : State) : Prop := s.pending = [] ∧ s.Safe

/-- IBUF holds the bytes `bs` from offset `k` on, every one of them written by the host. -/
abbrev State.holds (s : State) (k : Nat) (bs : List Byte) : Prop :=
  (List.range' k bs.length).map (fun j => s.ibuf.read j) = bs.map some

/-- The window is legal (20_memory.md R63): BASE + AVAIL ≤ P_IBUF_SIZE, summed exactly. -/
abbrev State.windowFits (s : State) : Prop :=
  s.base.toNat + s.avail.toNat ≤ s.params.ibufSize.toNat

/-- The window is legal and its bytes, all written, are `bs` (20_memory.md R62, R63). -/
abbrev State.windowIs (s : State) (bs : List Byte) : Prop :=
  s.windowFits ∧ bs.length = s.avail.toNat ∧ s.holds s.base.toNat bs

/-- Every byte of the window is written (20_memory.md R62). -/
abbrev State.windowWritten (s : State) : Prop :=
  ∀ j ∈ List.range' s.base.toNat s.avail.toNat, (s.ibuf.read j).isSome

/-- A letter, in the numbers of 40_type.md R100. -/
abbrev Letter (b : Byte) : Prop := (65 ≤ b.toNat ∧ b.toNat ≤ 90) ∨ (97 ≤ b.toNat ∧ b.toNat ≤ 122)

/-- Four bytes, all letters: a valid chunk-type code (40_type.md R100, R101). -/
abbrev ValidType (t : List Byte) : Prop := t.length = 4 ∧ ∀ b ∈ t, Letter b

/-- Byte `i` of a TYPE value, at bits `[31−8i : 24−8i]` (10_state.md R40). -/
abbrev typeByte (t : Word) (i : Nat) : Byte := t.extractLsb' (24 - 8 * i) 8

/-- A valid record: a type of four letters and data of fewer than 2^31 bytes (42_frame.md R140, R142). -/
abbrev ValidRecord (t d : List Byte) : Prop := ValidType t ∧ d.length < 2 ^ 31

/-- STATUS after a success that sets no option (60_exceptions.md R203). -/
abbrev Status.succeeded (f : Status) : Status :=
  { f with ok := true, err := false, eos := false, crcMatch := false }

/-- STATUS after a failure that leaves TYPE_VALID alone (60_exceptions.md R202). -/
abbrev Status.failed (f : Status) : Status :=
  { f with ok := false, err := true, errSticky := true, eos := false, crcMatch := false }

/-- `s` after a failing command that leaves TYPE_VALID alone: STATUS, ERR, ERR_INFO0 and ERR_INFO1 written, each
as the number the rule gives (60_exceptions.md R202). -/
abbrev State.afterError (s : State) (err info0 info1 : Nat) : State :=
  { s with status := s.status.failed, errReg := BitVec.ofNat 32 err, errInfo0 := BitVec.ofNat 64 info0
           errInfo1 := BitVec.ofNat 32 info1 }

/-- Some byte of IBUF[k..k+n) has its written-mark 0 (20_memory.md R62). -/
abbrev State.someUnwritten (s : State) (k n : Nat) : Prop :=
  ∃ j ∈ List.range' k n, s.ibuf.read j = none

/-- An outcome with `f` applied to its next state. -/
def mapNext (f : State → State) : Host.Outcome State Fault Refusal → Host.Outcome State Fault Refusal
  | .next t => .next (f t)
  | .fault r => .fault r
  | .refused r => .refused r

/-- The commands that read IBUF (20_memory.md R63, 30_encoding.md R82). -/
def readsIbuf : Instr → Bool
  | .typeParse | .crcBuf | .slice | .decode | .next | .construct => true
  | .nop | .clear | .typeCheck | .crcInit | .crcByte => false

/-- The invariant of 10_state.md R56: while TYPE_VALID = 1, every byte of TypeBytes(x[TYPE]) is a letter. -/
def State.TypeInv (s : State) : Prop :=
  s.status.typeValid = true → ∀ b ∈ typeBytes s.typeCode, Letter b

/-- What STATUS and the error record always say together (10_state.md R31, R32, R33, R34, R46, R48, R49). -/
structure State.StatusInv (s : State) : Prop where
  /-- OK and ERR are never both 1 (R31). -/
  okErr : ¬ (s.status.ok = true ∧ s.status.err = true)
  /-- The last command's failure is latched (R32). -/
  errSticky : s.status.err = true → s.status.errSticky = true
  /-- EOS is only left by a success (R33). -/
  eosOk : s.status.eos = true → s.status.ok = true
  /-- CRC_MATCH is only left by a success (R34). -/
  crcMatchOk : s.status.crcMatch = true → s.status.ok = true
  /-- CRC_MATCH = 1 means the stored and computed CRC agree (R34, R46). -/
  crcMatchEq : s.status.crcMatch = true → s.crcStored = s.crcCalc
  /-- With no failure since CLEAR or reset, the error record is empty (R32, R48). -/
  clean : s.status.errSticky = false → s.errReg = 0 ∧ s.errInfo0 = 0 ∧ s.errInfo1 = 0
  /-- After a failure, KIND is one of 0x01 to 0x08 (R48, 60_exceptions.md R201). -/
  kind : s.status.errSticky = true → 1 ≤ (errKindField s.errReg).toNat ∧ (errKindField s.errReg).toNat ≤ 8
  /-- ERR's reserved bits are 0 (R48). -/
  reserved : s.errReg.extractLsb' 12 4 = 0 ∧ s.errReg.extractLsb' 24 8 = 0
  /-- WRAPPED only with INVALID_CHARACTER (R48, 60_exceptions.md R206). -/
  wrapped : errWrappedField s.errReg = true → errKindField s.errReg = 0x02
  /-- SUB only with LENGTH_TOO_LARGE (R48). -/
  sub : errSubField s.errReg = true → errKindField s.errReg = 0x04
  /-- STAGE only from NEXT (R48). -/
  stage : errStageField s.errReg ≠ 0 → errOpcField s.errReg = 0x32
  /-- Only LENGTH_TOO_LARGE makes ERR_INFO0_HI nonzero (R49). -/
  infoHi : s.errInfo0.extractLsb' 32 32 ≠ 0 → errKindField s.errReg = 0x04

/-- What the storage always looks like: IBUF in canonical form and inside P_IBUF_SIZE (20_memory.md R60, R61), and
SPAN = 12 + LEN without wrap once a frame command has written them (10_state.md R44). -/
structure State.StorageInv (s : State) : Prop where
  ibufWf : s.ibuf.wf
  ibufBound : ∀ c ∈ s.ibuf, c.1 < s.params.ibufSize.toNat
  span : s.span.toNat = 12 + s.len.toNat ∨ (s.span = 0 ∧ s.len = 0)

/-- The machine's invariant. -/
structure State.Inv (s : State) : Prop where
  type : s.TypeInv
  status : s.StatusInv
  storage : s.StorageInv

end Sys2Proof.Machine
end

