-- ==== Sys2Proof/Certificates/Slice0/Obligations.lean ====
section
/-! DEFINITION. The statements for the provers, from the numbered rules of spec/. Error registers are written as
the numbers of 10_state.md R48: KIND + 2^8 WRAPPED + 2^9 SUB + 2^10 STAGE + 2^16 OPC. -/

open Sys2Proof Sys2Proof.Machine

/-! ## Encoding and issue -/

/-- 30_encoding.md R82: the word of each command, written out, decodes to the command and is its encoding. -/
def Obligations.OpcodeMapWords : Prop :=
  ∀ p ∈ [((0x00000000 : Word), Instr.nop), (0x00000001, .clear), (0x00000010, .typeCheck),
         (0x00000011, .typeParse), (0x00000020, .crcInit), (0x00000021, .crcByte), (0x00000022, .crcBuf),
         (0x00000030, .slice), (0x00000031, .decode), (0x00000032, .next), (0x00000033, .construct)],
    decode p.1 = .ok p.2 ∧ encode p.2 = p.1

/-- 30_encoding.md R85, R86: a word decodes to command i exactly when it is i's word; it is rejected for its
reserved bits exactly when it is 256 or more, and for its OPC exactly when it is below 256 and no command's. -/
def Obligations.EveryWordIsOneCommandOrIllegal : Prop :=
  ∀ w : Word,
    (∀ i, decode w = .ok i ↔ w = encode i) ∧
    (decode w = .error .reservedBits ↔ 256 ≤ w.toNat) ∧
    (decode w = .error .unmappedOpc ↔ w.toNat < 256 ∧ ∀ i, w ≠ encode i)

/-- 43_control.md R182: a CMD write of any other word sets STATUS, ERR, ERR_INFO0 and ERR_INFO1 for ILLEGAL_CMD
and changes nothing else. -/
def Obligations.IllegalWordRaisesIllegalCmd : Prop :=
  ∀ (s : State) (d : BitVec 64) (rest : List HostAction),
    s.pending = .write (.reg 0x08) 32 d :: rest →
    (∀ i, d.setWidth 32 ≠ encode i) →
    step s = .next (State.afterError { s with pending := rest }
      (0x07 + 2 ^ 16 * ((d.setWidth 32).toNat % 256)) (d.setWidth 32).toNat 0)

/-- 30_encoding.md R81, 10_state.md R28: a CMD write runs the decoded command on the state whose queue has moved
past that write. The queue of host accesses is the model's own (log 2). -/
def Obligations.CmdWriteRunsTheDecodedCommand : Prop :=
  (∀ (s : State) (d : BitVec 64) (rest : List HostAction) (i : Instr),
    s.pending = .write (.reg 0x08) 32 d :: rest → decode (d.setWidth 32) = .ok i →
    step s = exec i { s with pending := rest }) ∧
  (∀ (s : State) (w : Word) (i : Instr), decode w = .ok i → step (s.withFetchWord 32 w.toNat) = exec i s)

/-- 60_exceptions.md R219: every step has an outcome that goes on; none faults or refuses as a host outcome. -/
def Obligations.EveryStepAnswersNext : Prop := ∀ s : State, ∃ t, step s = .next t

/-! ## The commands, each with every outcome its rule gives -/

/-- 43_control.md R180. -/
def Obligations.NopSetsOnlyStatus : Prop :=
  ∀ s : State, exec .nop s = .next { s with status := s.status.succeeded }

/-- 43_control.md R181. -/
def Obligations.ClearDiscardsTheErrorRecord : Prop :=
  ∀ s : State, exec .clear s = .next
    { s with errReg := 0, errInfo0 := 0, errInfo1 := 0
             status := { s.status.succeeded with errSticky := false } }

/-- 40_type.md R103: four letters succeed with TYPE_VALID = 1; otherwise the first non-letter is reported and
TYPE_VALID becomes 0. -/
def Obligations.TypeCheckValidatesType : Prop :=
  (∀ s : State, (∀ i < 4, Letter (typeByte s.typeCode i)) →
    exec .typeCheck s = .next { s with status := { s.status.succeeded with typeValid := true } }) ∧
  (∀ (s : State) (i : Nat), i < 4 → (∀ j < i, Letter (typeByte s.typeCode j)) →
    ¬ Letter (typeByte s.typeCode i) →
    exec .typeCheck s = .next
      { s.afterError 0x00100002 i (typeByte s.typeCode i).toNat with
          status := { s.status.failed with typeValid := false } })

/-- 40_type.md R104: BAD_WINDOW, then INVALID_LENGTH, then INVALID_CHARACTER, else TYPE is loaded. -/
def Obligations.TypeParseLoadsTheWindow : Prop :=
  (∀ s : State, ¬ s.windowFits →
    exec .typeParse s = .next (s.afterError 0x00110008 s.base.toNat s.avail.toNat)) ∧
  (∀ s : State, s.windowFits → s.avail ≠ 4 →
    exec .typeParse s = .next (s.afterError 0x00110001 s.avail.toNat 0)) ∧
  (∀ (s : State) (p r : List Byte) (c : Byte), s.windowIs (p ++ c :: r) → s.avail = 4 →
    (∀ b ∈ p, Letter b) → ¬ Letter c →
    exec .typeParse s = .next (s.afterError 0x00110002 p.length c.toNat)) ∧
  (∀ (s : State) (t : List Byte), s.windowIs t → s.avail = 4 → ValidType t →
    exec .typeParse s = .next
      { s with typeCode := BitVec.ofNat 32 (be32 t), status := { s.status.succeeded with typeValid := true } })

/-- 41_crc.md R125. -/
def Obligations.CrcInitStartsTheAccumulator : Prop :=
  ∀ s : State, exec .crcInit s = .next { s with acc := 0xFFFFFFFF, status := s.status.succeeded }

/-- 41_crc.md R126, R122: ACC becomes Table[(ACC and 0xFF) xor DIN] xor (ACC >> 8). -/
def Obligations.CrcByteFoldsDin : Prop :=
  ∀ s : State, exec .crcByte s = .next
    { s with acc := crcTable (((s.acc &&& 0xFF) ^^^ s.din.setWidth 32).setWidth 8) ^^^ (s.acc >>> 8)
             status := s.status.succeeded }

/-- 41_crc.md R127: BAD_WINDOW, else the window's bytes are folded into ACC; a window with an unwritten byte is
a model fault. -/
def Obligations.CrcBufFoldsTheWindow : Prop :=
  (∀ s : State, ¬ s.windowFits →
    exec .crcBuf s = .next (s.afterError 0x00220008 s.base.toNat s.avail.toNat)) ∧
  (∀ (s : State) (bs : List Byte), s.windowIs bs →
    exec .crcBuf s = .next { s with acc := crcFold s.acc bs, status := s.status.succeeded }) ∧
  (∀ s : State, s.windowFits → s.someUnwritten s.base.toNat s.avail.toNat →
    ∃ t, exec .crcBuf s = .next t ∧ t.faulted = true)

/-- 42_frame.md R145: BAD_WINDOW, NOT_ENOUGH_BYTES, LENGTH_TOO_LARGE (SUB 0), else LEN and SPAN; only the four
length bytes need be written, and the length limit is not applied. -/
def Obligations.SliceFindsTheSpan : Prop :=
  (∀ s : State, ¬ s.windowFits →
    exec .slice s = .next (s.afterError 0x00300008 s.base.toNat s.avail.toNat)) ∧
  (∀ s : State, s.windowFits → s.avail.toNat < 12 →
    exec .slice s = .next (s.afterError 0x00300003 s.avail.toNat 12)) ∧
  (∀ (s : State) (n : Nat), s.windowFits → 12 ≤ s.avail.toNat → n < 2 ^ 32 →
    s.holds s.base.toNat (bytesBe32 n) → s.avail.toNat < 12 + n →
    exec .slice s = .next (s.afterError 0x00300004 (12 + n) s.avail.toNat)) ∧
  (∀ (s : State) (n : Nat), s.windowFits → n < 2 ^ 32 → s.holds s.base.toNat (bytesBe32 n) →
    12 + n ≤ s.avail.toNat →
    exec .slice s = .next { s with len := BitVec.ofNat 32 n, span := BitVec.ofNat 32 (12 + n)
                                   status := s.status.succeeded })

/-- 42_frame.md R146, R144: the seven errors in their order, and the success. -/
def Obligations.DecodeChecksOneRecord : Prop :=
  (∀ s : State, ¬ s.windowFits →
    exec .decode s = .next (s.afterError 0x00310008 s.base.toNat s.avail.toNat)) ∧
  (∀ s : State, s.windowFits → s.avail.toNat < 12 →
    exec .decode s = .next (s.afterError 0x00310003 s.avail.toNat 12)) ∧
  (∀ (s : State) (n : Nat), s.windowFits → 12 ≤ s.avail.toNat → n < 2 ^ 32 →
    s.holds s.base.toNat (bytesBe32 n) → 2 ^ 31 ≤ n →
    exec .decode s = .next (s.afterError 0x00310204 (12 + n) s.avail.toNat)) ∧
  (∀ (s : State) (n : Nat), s.windowFits → 12 ≤ s.avail.toNat → n < 2 ^ 31 →
    s.holds s.base.toNat (bytesBe32 n) → s.avail.toNat < 12 + n →
    exec .decode s = .next (s.afterError 0x00310004 (12 + n) s.avail.toNat)) ∧
  (∀ (s : State) (n : Nat), s.windowFits → 12 ≤ s.avail.toNat → n < 2 ^ 31 →
    s.holds s.base.toNat (bytesBe32 n) → 12 + n < s.avail.toNat →
    exec .decode s = .next (s.afterError 0x00310005 (s.avail.toNat - (12 + n)) 0)) ∧
  (∀ (s : State) (t d : List Byte) (c : Word), t.length = 4 → d.length < 2 ^ 31 →
    s.windowIs (frameImage d.length t d c) → c ≠ checksum (t ++ d) →
    exec .decode s = .next (s.afterError 0x00310006 c.toNat (checksum (t ++ d)).toNat)) ∧
  (∀ (s : State) (p r d : List Byte) (x : Byte), (p ++ x :: r).length = 4 → d.length < 2 ^ 31 →
    s.windowIs (frameImage d.length (p ++ x :: r) d (checksum (p ++ x :: r ++ d))) →
    (∀ b ∈ p, Letter b) → ¬ Letter x →
    exec .decode s = .next (s.afterError 0x00310102 p.length x.toNat)) ∧
  (∀ (s : State) (t d : List Byte), ValidRecord t d →
    s.windowIs (frameImage d.length t d (checksum (t ++ d))) →
    exec .decode s = .next
      { s with len := BitVec.ofNat 32 d.length, span := BitVec.ofNat 32 (12 + d.length)
               typeCode := BitVec.ofNat 32 (be32 t), crcStored := checksum (t ++ d)
               crcCalc := checksum (t ++ d), dataOff := BitVec.ofNat 32 (s.base.toNat + 8)
               status := { s.status.succeeded with crcMatch := true, typeValid := true } })

/-- 42_frame.md R147: BAD_WINDOW, end of stream, the slice stage's errors (STAGE 1), the decode stage's (STAGE 2),
and the decoded record with the advance of BASE and AVAIL. -/
def Obligations.NextWalksOneRecord : Prop :=
  (∀ s : State, ¬ s.windowFits →
    exec .next s = .next (s.afterError 0x00320008 s.base.toNat s.avail.toNat)) ∧
  (∀ s : State, s.windowFits → s.avail = 0 →
    exec .next s = .next { s with status := { s.status.succeeded with eos := true } }) ∧
  (∀ s : State, s.windowFits → s.avail ≠ 0 → s.avail.toNat < 12 →
    exec .next s = .next (s.afterError 0x00320403 s.avail.toNat 12)) ∧
  (∀ (s : State) (n : Nat), s.windowFits → 12 ≤ s.avail.toNat → n < 2 ^ 32 →
    s.holds s.base.toNat (bytesBe32 n) → s.avail.toNat < 12 + n →
    exec .next s = .next (s.afterError 0x00320404 (12 + n) s.avail.toNat)) ∧
  (∀ (s : State) (n : Nat), s.windowFits → n < 2 ^ 32 → s.holds s.base.toNat (bytesBe32 n) →
    12 + n ≤ s.avail.toNat → 2 ^ 31 ≤ n →
    exec .next s = .next (s.afterError 0x00320A04 (12 + n) (12 + n))) ∧
  (∀ (s : State) (t d : List Byte) (c : Word), t.length = 4 → d.length < 2 ^ 31 → s.windowFits →
    12 + d.length ≤ s.avail.toNat → s.holds s.base.toNat (frameImage d.length t d c) →
    c ≠ checksum (t ++ d) →
    exec .next s = .next (s.afterError 0x00320806 c.toNat (checksum (t ++ d)).toNat)) ∧
  (∀ (s : State) (p r d : List Byte) (x : Byte), (p ++ x :: r).length = 4 → d.length < 2 ^ 31 →
    s.windowFits → 12 + d.length ≤ s.avail.toNat →
    s.holds s.base.toNat (frameImage d.length (p ++ x :: r) d (checksum (p ++ x :: r ++ d))) →
    (∀ b ∈ p, Letter b) → ¬ Letter x →
    exec .next s = .next (s.afterError 0x00320902 p.length x.toNat)) ∧
  (∀ (s : State) (t d : List Byte), ValidRecord t d → s.windowFits → 12 + d.length ≤ s.avail.toNat →
    s.holds s.base.toNat (frameImage d.length t d (checksum (t ++ d))) →
    exec .next s = .next
      { s with len := BitVec.ofNat 32 d.length, span := BitVec.ofNat 32 (12 + d.length)
               typeCode := BitVec.ofNat 32 (be32 t), crcStored := checksum (t ++ d)
               crcCalc := checksum (t ++ d), dataOff := BitVec.ofNat 32 (s.base.toNat + 8)
               base := BitVec.ofNat 32 (s.base.toNat + (12 + d.length))
               avail := BitVec.ofNat 32 (s.avail.toNat - (12 + d.length))
               status := { s.status.succeeded with crcMatch := true, typeValid := true } })

/-- 42_frame.md R148: BAD_WINDOW, INVALID_CHARACTER (WRAPPED, TYPE_VALID cleared), LENGTH_TOO_LARGE (SUB 1), else
LEN, SPAN, CRC_CALC and DATA_OFF of the new record. -/
def Obligations.ConstructComputesTheRecord : Prop :=
  (∀ s : State, ¬ s.windowFits →
    exec .construct s = .next (s.afterError 0x00330008 s.base.toNat s.avail.toNat)) ∧
  (∀ (s : State) (i : Nat), s.windowFits → i < 4 → (∀ j < i, Letter (typeByte s.typeCode j)) →
    ¬ Letter (typeByte s.typeCode i) →
    exec .construct s = .next
      { s.afterError 0x00330102 i (typeByte s.typeCode i).toNat with
          status := { s.status.failed with typeValid := false } }) ∧
  (∀ s : State, s.windowFits → (∀ i < 4, Letter (typeByte s.typeCode i)) → 2 ^ 31 ≤ s.avail.toNat →
    exec .construct s = .next (s.afterError 0x00330204 (12 + s.avail.toNat) s.avail.toNat)) ∧
  (∀ (s : State) (d : List Byte), s.windowIs d → (∀ i < 4, Letter (typeByte s.typeCode i)) →
    d.length < 2 ^ 31 →
    exec .construct s = .next
      { s with len := BitVec.ofNat 32 d.length, span := BitVec.ofNat 32 (12 + d.length)
               crcCalc := checksum (typeBytes s.typeCode ++ d), dataOff := s.base
               status := { s.status.succeeded with typeValid := true } })

/-! ## Frames: what a command leaves unchanged -/

/-- The frame of NOP, CLEAR, TYPE_CHECK, CRC_INIT and CRC_BYTE, which read no IBUF (30_encoding.md R83). -/
def Obligations.FrameOfTheRegisterCommands : Prop :=
  (∀ s t : State, exec .nop s = .next t →
    t = { s with status := t.status } ∧ t.status.errSticky = s.status.errSticky ∧
    t.status.typeValid = s.status.typeValid ∧ ∀ a, t.ibuf.read a = s.ibuf.read a) ∧
  (∀ s t : State, exec .clear s = .next t →
    t = { s with status := t.status, errReg := t.errReg, errInfo0 := t.errInfo0, errInfo1 := t.errInfo1 } ∧
    t.status.typeValid = s.status.typeValid ∧ ∀ a, t.ibuf.read a = s.ibuf.read a) ∧
  (∀ s t : State, exec .typeCheck s = .next t →
    t = { s with status := t.status, errReg := t.errReg, errInfo0 := t.errInfo0, errInfo1 := t.errInfo1 } ∧
    ∀ a, t.ibuf.read a = s.ibuf.read a) ∧
  (∀ s t : State, exec .crcInit s = .next t ∨ exec .crcByte s = .next t →
    t = { s with acc := t.acc, status := t.status } ∧ t.status.errSticky = s.status.errSticky ∧
    t.status.typeValid = s.status.typeValid ∧ ∀ a, t.ibuf.read a = s.ibuf.read a)

/-- The frame of CRC_BUF and SLICE: ACC, or LEN and SPAN, and the error record; TYPE_VALID keeps its value, and the
model's fault record moves only with an unwritten byte in the window (30_encoding.md R83). -/
def Obligations.FrameOfCrcBufAndSlice : Prop :=
  (∀ s t : State, exec .crcBuf s = .next t →
    t = { s with acc := t.acc, status := t.status, errReg := t.errReg, errInfo0 := t.errInfo0,
                 errInfo1 := t.errInfo1, faulted := t.faulted, draws := t.draws } ∧
    t.status.typeValid = s.status.typeValid ∧ (∀ a, t.ibuf.read a = s.ibuf.read a) ∧
    (s.windowWritten → t.faulted = s.faulted ∧ t.draws = s.draws)) ∧
  (∀ s t : State, exec .slice s = .next t →
    t = { s with len := t.len, span := t.span, status := t.status, errReg := t.errReg,
                 errInfo0 := t.errInfo0, errInfo1 := t.errInfo1, faulted := t.faulted, draws := t.draws } ∧
    t.status.typeValid = s.status.typeValid ∧ (∀ a, t.ibuf.read a = s.ibuf.read a) ∧
    (s.windowWritten → t.faulted = s.faulted ∧ t.draws = s.draws))

/-- The frame of TYPE_PARSE, DECODE, NEXT and CONSTRUCT (30_encoding.md R83). -/
def Obligations.FrameOfTheTypeAndRecordCommands : Prop :=
  (∀ s t : State, exec .typeParse s = .next t →
    t = { s with typeCode := t.typeCode, status := t.status, errReg := t.errReg, errInfo0 := t.errInfo0,
                 errInfo1 := t.errInfo1, faulted := t.faulted, draws := t.draws } ∧
    (∀ a, t.ibuf.read a = s.ibuf.read a) ∧
    (s.windowWritten → t.faulted = s.faulted ∧ t.draws = s.draws)) ∧
  (∀ s t : State, exec .decode s = .next t →
    t = { s with len := t.len, span := t.span, typeCode := t.typeCode, crcStored := t.crcStored,
                 crcCalc := t.crcCalc, dataOff := t.dataOff, status := t.status, errReg := t.errReg,
                 errInfo0 := t.errInfo0, errInfo1 := t.errInfo1, faulted := t.faulted, draws := t.draws } ∧
    (∀ a, t.ibuf.read a = s.ibuf.read a) ∧
    (s.windowWritten → t.faulted = s.faulted ∧ t.draws = s.draws)) ∧
  (∀ s t : State, exec .next s = .next t →
    t = { s with base := t.base, avail := t.avail, len := t.len, span := t.span, typeCode := t.typeCode,
                 crcStored := t.crcStored, crcCalc := t.crcCalc, dataOff := t.dataOff, status := t.status,
                 errReg := t.errReg, errInfo0 := t.errInfo0, errInfo1 := t.errInfo1,
                 faulted := t.faulted, draws := t.draws } ∧
    (∀ a, t.ibuf.read a = s.ibuf.read a) ∧
    (s.windowWritten → t.faulted = s.faulted ∧ t.draws = s.draws)) ∧
  (∀ s t : State, exec .construct s = .next t →
    t = { s with len := t.len, span := t.span, crcCalc := t.crcCalc, dataOff := t.dataOff,
                 status := t.status, errReg := t.errReg, errInfo0 := t.errInfo0, errInfo1 := t.errInfo1,
                 faulted := t.faulted, draws := t.draws } ∧
    (∀ a, t.ibuf.read a = s.ibuf.read a) ∧
    (s.windowWritten → t.faulted = s.faulted ∧ t.draws = s.draws))

/-- 60_exceptions.md R204: a command word that fails, legal or illegal, leaves every register except STATUS, ERR,
ERR_INFO0 and ERR_INFO1 as it was, and IBUF too; ERR.OPC is the word's bits 7:0. -/
def Obligations.FailedCommandWritesOnlyTheErrorRecord : Prop :=
  ∀ (w : Word) (s t : State), executeWord w s = .next t → t.status.err = true →
    t = { s with status := t.status, errReg := t.errReg, errInfo0 := t.errInfo0, errInfo1 := t.errInfo1,
                 faulted := t.faulted, draws := t.draws } ∧
    (∀ a, t.ibuf.read a = s.ibuf.read a) ∧ errOpcField t.errReg = w.extractLsb' 0 8

/-- 70_reset_and_hazards.md R247, 60_exceptions.md R203: a success other than CLEAR's leaves ERR_STICKY, ERR,
ERR_INFO0 and ERR_INFO1 alone. -/
def Obligations.SuccessKeepsTheErrorRecord : Prop :=
  ∀ (i : Instr) (s t : State), exec i s = .next t → t.status.ok = true → i ≠ .clear →
    t.errReg = s.errReg ∧ t.errInfo0 = s.errInfo0 ∧ t.errInfo1 = s.errInfo1 ∧
    t.status.errSticky = s.status.errSticky

/-! ## STATUS -/

/-- 10_state.md R31: every command word leaves exactly one of OK and ERR, and a word that is no command leaves ERR;
after power-on and after reset both are 0. -/
def Obligations.OkAndErrDescribeTheLastCommand : Prop :=
  (∀ (w : Word) (s t : State), executeWord w s = .next t →
    t.status.err = !t.status.ok ∧ ((∀ i, w ≠ encode i) → t.status.err = true)) ∧
  (∀ p : Params, (State.powerOn p).status.ok = false ∧ (State.powerOn p).status.err = false) ∧
  (∀ (s t : State) (rest : List HostAction), s.pending = .reset :: rest → step s = .next t →
    t.status.ok = false ∧ t.status.err = false)

/-- 10_state.md R32: ERR_STICKY becomes 1 whenever a command fails; only CLEAR and reset clear it. -/
def Obligations.ErrStickyLatchesUntilClearOrReset : Prop :=
  (∀ (w : Word) (s t : State), executeWord w s = .next t → t.status.err = true → t.status.errSticky = true) ∧
  (∀ s t : State, step s = .next t → s.status.errSticky = true → t.status.errSticky = false →
    ∃ rest, s.pending = .reset :: rest ∨
      ∃ d : BitVec 64, s.pending = .write (.reg 0x08) 32 d :: rest ∧ d.setWidth 32 = encode .clear)

/-- 10_state.md R33: EOS is 1 exactly after a NEXT that found AVAIL = 0 in a legal window. -/
def Obligations.EosOnlyAfterNextOnAnEmptyWindow : Prop :=
  ∀ (w : Word) (s t : State), executeWord w s = .next t →
    (t.status.eos = true ↔ w = encode .next ∧ s.avail = 0 ∧ s.windowFits)

/-- 10_state.md R34: CRC_MATCH is 1 exactly after a DECODE or NEXT that decoded a record, and then the stored and
computed CRC are equal. -/
def Obligations.CrcMatchOnlyAfterADecodedRecord : Prop :=
  ∀ (w : Word) (s t : State), executeWord w s = .next t →
    (t.status.crcMatch = true ↔
      t.status.ok = true ∧ (w = encode .decode ∨ (w = encode .next ∧ t.status.eos = false))) ∧
    (t.status.crcMatch = true → t.crcStored = t.crcCalc)

/-- 10_state.md R35: which events change TYPE_VALID: commands, host writes other than a permitted CMD write, reset, and
the other host accesses. -/
def Obligations.TypeValidChangesOnlyAsStated : Prop :=
  (∀ (w : Word) (s t : State), executeWord w s = .next t →
    t.status.typeValid =
      if t.status.ok = true then
        (if w = encode .typeCheck ∨ w = encode .typeParse ∨ w = encode .decode ∨ w = encode .construct ∨
            (w = encode .next ∧ t.status.eos = false) then true else s.status.typeValid)
      else if w = encode .typeCheck ∨ (w = encode .construct ∧ errKindField t.errReg = 0x02) then false
      else s.status.typeValid) ∧
  (∀ (s t : State) (o bits : Nat) (d : BitVec 64) (rest : List HostAction), (o ≠ 0x08 ∨ bits ≠ 32) →
    s.pending = .write (.reg o) bits d :: rest → step s = .next t →
    t.status.typeValid = if o = 0x1C ∧ bits = 32 then false else s.status.typeValid) ∧
  (∀ (s t : State) (rest : List HostAction), s.pending = .reset :: rest → step s = .next t →
    t.status.typeValid = false) ∧
  (∀ (s t : State) (a : HostAction) (rest : List HostAction), s.pending = a :: rest → step s = .next t →
    (∃ k bits d, a = .write (.ibuf k) bits d) ∨ (∃ g bits, a = .read g bits) →
    t.status.typeValid = s.status.typeValid)

/-- 10_state.md R29, R36, 40_type.md R102: the STATUS word bit by bit. -/
def Obligations.StatusReadsItsFields : Prop :=
  ∀ s : State,
    (s.readReg .status).getLsbD 0 = false ∧
    (s.readReg .status).getLsbD 1 = s.status.ok ∧
    (s.readReg .status).getLsbD 2 = s.status.err ∧
    (s.readReg .status).getLsbD 3 = s.status.errSticky ∧
    (s.readReg .status).getLsbD 4 = s.status.eos ∧
    (s.readReg .status).getLsbD 5 = s.status.crcMatch ∧
    (s.readReg .status).getLsbD 6 = s.status.typeValid ∧
    (s.readReg .status).getLsbD 7 = !(typeByte s.typeCode 0).getLsbD 5 ∧
    (s.readReg .status).getLsbD 8 = !(typeByte s.typeCode 1).getLsbD 5 ∧
    (s.readReg .status).getLsbD 9 = (typeByte s.typeCode 2).getLsbD 5 ∧
    (s.readReg .status).getLsbD 10 = (typeByte s.typeCode 3).getLsbD 5 ∧
    (s.readReg .status).extractLsb' 11 21 = 0

/-- 60_exceptions.md R201, R206, 10_state.md R48, 42_frame.md R147: which command raises which kind, and when
WRAPPED, SUB and STAGE are set. SUB = 1 says that the length reaches the limit and SUB = 0 that the span exceeds the
window: SLICE's LENGTH_TOO_LARGE always has SUB = 0, CONSTRUCT's always SUB = 1. In a NEXT that reads an unwritten
length byte, the kinds the two stages share out (no REMAINING_BYTES, no SUB = 0 in the decode stage) rest on the byte
having one value within a command: the model's choice (log 5). -/
def Obligations.ErrorKindsByCommand : Prop :=
  ∀ (i : Instr) (s t : State), exec i s = .next t → t.status.err = true →
    (errKindField t.errReg, i) ∈
      [((0x01 : Byte), Instr.typeParse), (0x02, .typeCheck), (0x02, .typeParse), (0x02, .decode), (0x02, .next),
       (0x02, .construct), (0x03, .slice), (0x03, .decode), (0x03, .next), (0x04, .slice), (0x04, .decode),
       (0x04, .next), (0x04, .construct), (0x05, .decode), (0x06, .decode), (0x06, .next),
       (0x08, .typeParse), (0x08, .crcBuf), (0x08, .slice), (0x08, .decode), (0x08, .next), (0x08, .construct)] ∧
    (errWrappedField t.errReg = true ↔
      errKindField t.errReg = 0x02 ∧ (i = .decode ∨ i = .next ∨ i = .construct)) ∧
    (errSubField t.errReg = true →
      errKindField t.errReg = 0x04 ∧ i ≠ .slice ∧ 12 + 2 ^ 31 ≤ t.errInfo0.toNat) ∧
    (errSubField t.errReg = false → errKindField t.errReg = 0x04 →
      i ≠ .construct ∧ s.avail.toNat < t.errInfo0.toNat ∧ (i = .decode → t.errInfo0.toNat < 12 + 2 ^ 31)) ∧
    (errStageField t.errReg ≠ 0 ↔ i = .next ∧ errKindField t.errReg ≠ 0x08) ∧
    (errStageField t.errReg = 1 ↔ i = .next ∧
      (errKindField t.errReg = 0x03 ∨ (errKindField t.errReg = 0x04 ∧ errSubField t.errReg = false))) ∧
    (errStageField t.errReg = 2 ↔ i = .next ∧
      (errKindField t.errReg = 0x02 ∨ errKindField t.errReg = 0x06 ∨
        (errKindField t.errReg = 0x04 ∧ errSubField t.errReg = true)))

/-! ## Windows and unwritten bytes -/

/-- 20_memory.md R63: every command that reads IBUF checks the window first, with an exact sum; no other command
reports BAD_WINDOW, and none reports it for a window that fits. -/
def Obligations.WindowCheckComesFirst : Prop :=
  (∀ (i : Instr) (s : State), readsIbuf i = true →
    s.params.ibufSize.toNat < s.base.toNat + s.avail.toNat →
    exec i s = .next (s.afterError (0x08 + 2 ^ 16 * (opcodeOf i).toNat) s.base.toNat s.avail.toNat)) ∧
  (∀ (i : Instr) (s t : State), exec i s = .next t → t.status.err = true →
    (readsIbuf i = false ∨ s.windowFits) → errKindField t.errReg ≠ 0x08)

/-- 20_memory.md R62, 60_exceptions.md R219, with the reads of each command's rule: a command is a model fault
exactly when it reads a byte whose written-mark is 0. -/
def Obligations.UnwrittenReadIsAModelFault : Prop :=
  (∀ s t : State, exec .typeParse s = .next t →
    (t.faulted = true ↔ s.faulted = true ∨
      (s.windowFits ∧ s.avail = 4 ∧ s.someUnwritten s.base.toNat 4))) ∧
  (∀ s t : State, exec .crcBuf s = .next t →
    (t.faulted = true ↔ s.faulted = true ∨
      (s.windowFits ∧ s.someUnwritten s.base.toNat s.avail.toNat))) ∧
  (∀ s t : State, exec .slice s = .next t →
    (t.faulted = true ↔ s.faulted = true ∨
      (s.windowFits ∧ 12 ≤ s.avail.toNat ∧ s.someUnwritten s.base.toNat 4))) ∧
  (∀ s t : State, exec .construct s = .next t →
    (t.faulted = true ↔ s.faulted = true ∨
      (s.windowFits ∧ (∀ i < 4, Letter (typeByte s.typeCode i)) ∧ s.avail.toNat < 2 ^ 31 ∧
        s.someUnwritten s.base.toNat s.avail.toNat))) ∧
  (∀ s t : State, exec .decode s = .next t →
    (t.faulted = true ↔ s.faulted = true ∨
      (s.windowFits ∧ 12 ≤ s.avail.toNat ∧ (s.someUnwritten s.base.toNat 4 ∨
        ∃ n < 2 ^ 31, s.holds s.base.toNat (bytesBe32 n) ∧ 12 + n = s.avail.toNat ∧
          s.someUnwritten s.base.toNat (12 + n))))) ∧
  (∀ s t : State, exec .next s = .next t →
    (t.faulted = true ↔ s.faulted = true ∨
      (s.windowFits ∧ 12 ≤ s.avail.toNat ∧ (s.someUnwritten s.base.toNat 4 ∨
        ∃ n < 2 ^ 31, s.holds s.base.toNat (bytesBe32 n) ∧ 12 + n ≤ s.avail.toNat ∧
          s.someUnwritten s.base.toNat (12 + n))))) ∧
  (∀ (i : Instr) (s t : State), readsIbuf i = false → exec i s = .next t → t.faulted = s.faulted)

/-- 60_exceptions.md R219: no step, reset included, clears the fault flag. -/
def Obligations.FaultFlagIsNeverCleared : Prop :=
  ∀ s t : State, step s = .next t → s.faulted = true → t.faulted = true

/-- 20_memory.md R63, 60_exceptions.md R208: a command's outcome depends on no IBUF byte outside its window, and
on nothing the model adds for the host (the queue and the observed reads, log 2, log 3). Over an unwritten byte of the
window it also rests on the free value being that of the byte's offset and draw alone: the model's choice (log 4,
log 5). -/
def Obligations.CommandsDependOnlyOnTheWindow : Prop :=
  ∀ (i : Instr) (s : State) (m : Memory) (q : List HostAction) (o : List Observation),
    (∀ j, s.base.toNat ≤ j → j < s.base.toNat + s.avail.toNat → m.read j = s.ibuf.read j) →
    exec i { s with ibuf := m, pending := q, observed := o } =
      mapNext (fun t => { t with ibuf := m, pending := q, observed := o }) (exec i s)

/-- No step's outcome depends on a parameter other than P_IBUF_SIZE, and no step changes the parameters. That the
base addresses P_REG_BASE and P_IBUF_HOST_BASE do not matter is the model's choice of offsets as targets (log 9; the
forms of 30_encoding.md R89). That P_LATENCY and P_RESET_KIND do not is the model's leaving time and the sampling of
reset out (log 8; 70_reset_and_hazards.md R250, R240). That the parameters (00_scope.md R6) stand in State is log 1. -/
def Obligations.OutcomesDependOnNoOtherParameter : Prop :=
  (∀ (s : State) (p : Params), p.ibufSize = s.params.ibufSize →
    step { s with params := p } = mapNext (fun t => { t with params := p }) (step s)) ∧
  (∀ s t : State, step s = .next t → t.params = s.params)

/-! ## The CRC -/

/-- 41_crc.md R121: the three check entries of the CRC table. -/
def Obligations.CrcTableCheckEntries : Prop :=
  crcTable 0 = 0x00000000 ∧ crcTable 1 = 0x77073096 ∧ crcTable 128 = 0xEDB88320

/-- 41_crc.md R124: the bitwise form of Upd, and the streaming law. -/
def Obligations.CrcUpdateBitwiseAndStreaming : Prop :=
  (∀ (acc : Word) (b : Byte), crcUpd acc b = crcSteps 8 (acc ^^^ b.setWidth 32)) ∧
  (∀ (acc : Word) (s t : List Byte), crcFold (crcFold acc s) t = crcFold acc (s ++ t))

/-- 41_crc.md R124, R126, R127: a CRC_BYTE of b, then a CRC_BUF over bs, leave the ACC one CRC_BUF over b ++ bs
leaves. -/
def Obligations.CrcByteThenCrcBufIsOnePass : Prop :=
  ∀ (s u : State) (b : Byte) (bs : List Byte), s.din = b → s.windowIs bs → u.windowIs (b :: bs) →
    u.acc = s.acc →
    ∃ s1 s2 u1, exec .crcByte s = .next s1 ∧ exec .crcBuf s1 = .next s2 ∧ exec .crcBuf u = .next u1 ∧
      s2.acc = u1.acc

/-- 10_state.md R42: CRC_RES reads ACC xor 0xFFFFFFFF, so after CRC_INIT and CRC_BUF over bs it is Checksum(bs); its
reset value is 0, the Checksum of the empty sequence. -/
def Obligations.CrcResReadsTheChecksum : Prop :=
  (∀ s : State, s.readReg .crcRes = s.acc ^^^ 0xFFFFFFFF) ∧
  (∀ (s : State) (bs : List Byte), s.windowIs bs →
    ∃ t u, exec .crcInit s = .next t ∧ exec .crcBuf t = .next u ∧ u.readReg .crcRes = checksum bs) ∧
  (∀ p : Params, (State.powerOn p).readReg .crcRes = 0) ∧ checksum [] = 0

/-! ## Frames of the stream -/

/-- 42_frame.md R152, R144: DECODE accepts a written window exactly when it is the image of a valid record. -/
def Obligations.DecodeAcceptsExactlyTheValidRecords : Prop :=
  ∀ (s : State) (bs : List Byte), s.windowIs bs →
    ((∃ t, exec .decode s = .next t ∧ t.status.ok = true) ↔
      ∃ ty d, ValidRecord ty d ∧ bs = frameImage d.length ty d (checksum (ty ++ d)))

/-- 42_frame.md R152, R147: NEXT decodes a record from a written window exactly when the window begins with the
image of a valid record. -/
def Obligations.NextDecodesExactlyALeadingRecord : Prop :=
  ∀ (s : State) (bs : List Byte), s.windowIs bs →
    ((∃ t, exec .next s = .next t ∧ t.status.ok = true ∧ t.status.eos = false) ↔
      ∃ ty d rest, ValidRecord ty d ∧ bs = frameImage d.length ty d (checksum (ty ++ d)) ++ rest)

/-- 42_frame.md R150: a constructed record, serialized by the host at offset k, decodes to itself. -/
def Obligations.ConstructThenDecodeRoundTrips : Prop :=
  ∀ (s t u : State) (d : List Byte) (k : Nat),
    s.windowIs d → exec .construct s = .next t → t.status.ok = true →
    u.base.toNat = k → u.avail.toNat = 12 + d.length → u.windowFits →
    u.holds k (frameImage d.length (typeBytes s.typeCode) d t.crcCalc) →
    ∃ v, exec .decode u = .next v ∧ v.status.ok = true ∧ v.len.toNat = d.length ∧
      v.typeCode = s.typeCode ∧ v.crcStored = t.crcCalc ∧ v.crcCalc = t.crcCalc ∧
      v.dataOff.toNat = k + 8 ∧ v.holds v.dataOff.toNat d

/-- 42_frame.md R151: flip any single bit of the type or data bytes of a valid frame image, and DECODE fails with
INVALID_CRC. -/
def Obligations.AnySingleBitFlipIsAnInvalidCrc : Prop :=
  ∀ (s : State) (ty d : List Byte) (x : Byte) (p r : List Byte) (bit : Nat),
    ValidRecord ty d → ty ++ d = p ++ x :: r → bit < 8 →
    s.windowIs (bytesBe32 d.length ++ (p ++ (x ^^^ BitVec.twoPow 8 bit) :: r) ++
      bytesBe32 (checksum (ty ++ d)).toNat) →
    exec .decode s = .next (s.afterError 0x00310006 (checksum (ty ++ d)).toNat
      (checksum (p ++ (x ^^^ BitVec.twoPow 8 bit) :: r)).toNat)

/-- 42_frame.md R153: for a non-empty window, NEXT is SLICE on (BASE, AVAIL), then DECODE on (BASE, SPAN), then the
advance, but for ERR.STAGE (and ERR.OPC). The window's bytes are written, so that no free value is read. -/
def Obligations.NextIsSliceThenDecodeThenAdvance : Prop :=
  ∀ s s1 : State, s.windowFits → s.avail ≠ 0 → s.windowWritten → exec .slice s = .next s1 →
    (s1.status.err = true →
      exec .next s = .next
        { s1 with errReg := BitVec.ofNat 32 ((errKindField s1.errReg).toNat + 2 ^ 10 + 2 ^ 16 * 0x32) }) ∧
    (s1.status.ok = true →
      ∃ s2, exec .decode { s1 with avail := s1.span } = .next s2 ∧
        (s2.status.err = true →
          exec .next s = .next
            { s with status := s2.status
                     errReg := BitVec.ofNat 32 (s2.errReg.toNat % 2 ^ 10 + 2 ^ 11 + 2 ^ 16 * 0x32)
                     errInfo0 := s2.errInfo0, errInfo1 := s2.errInfo1 }) ∧
        (s2.status.ok = true →
          exec .next s = .next { s2 with base := s.base + s1.span, avail := s.avail - s1.span }))

/-- 10_state.md R22, 42_frame.md R147: NEXT leaves BASE + AVAIL unchanged, as exact numbers. -/
def Obligations.NextKeepsTheWindowEnd : Prop :=
  ∀ s t : State, exec .next s = .next t →
    t.base.toNat + t.avail.toNat = s.base.toNat + s.avail.toNat

/-- 70_reset_and_hazards.md R249: after a NEXT that decoded a record, the host can rewind it: the old BASE is
DATA_OFF − 8 and the old AVAIL is AVAIL + SPAN. -/
def Obligations.NextCanBeRewound : Prop :=
  ∀ s t : State, exec .next s = .next t → t.status.ok = true → t.status.eos = false →
    t.dataOff.toNat - 8 = s.base.toNat ∧ t.avail.toNat + t.span.toNat = s.avail.toNat ∧
    t.base.toNat = s.base.toNat + t.span.toNat ∧ 12 ≤ t.span.toNat

/-! ## The host's accesses and reset -/

/-- 10_state.md R40, 40_type.md R105: the packing of TYPE, and equality of type codes. -/
def Obligations.TypePacksItsBytesBigEndian : Prop :=
  (∀ t : Word, typeBytes t = [typeByte t 0, typeByte t 1, typeByte t 2, typeByte t 3] ∧
    be32 (typeBytes t) = t.toNat) ∧
  (∀ a b : Word, typeBytes a = typeBytes b ↔ a = b)

/-- 10_state.md R24 with the offsets of R23: what a permitted register read observes, and that it changes nothing
else. The observed list is the model's own (log 3). -/
def Obligations.RegisterReadsReturnTheMap : Prop :=
  ∀ (s : State) (o : Nat) (rest : List HostAction),
    s.pending = .read (.reg o) 32 :: rest → o % 4 = 0 → o < 0x100 →
    ∃ v : Word, step s = .next { s with pending := rest, observed := ⟨.reg o, v⟩ :: s.observed } ∧
      (o = 0x00 → v = 0x504E4743) ∧ (o = 0x04 → v = s.params.ibufSize) ∧ (o = 0x08 → v = 0) ∧
      (o = 0x0C → v = statusWord s.status s.typeCode) ∧ (o = 0x10 → v = s.base) ∧ (o = 0x14 → v = s.avail) ∧
      (o = 0x18 → v = s.din.setWidth 32) ∧ (o = 0x1C → v = s.typeCode) ∧ (o = 0x20 → v = s.acc) ∧
      (o = 0x24 → v = s.acc ^^^ 0xFFFFFFFF) ∧ (o = 0x28 → v = s.len) ∧ (o = 0x2C → v = s.span) ∧
      (o = 0x30 → v = s.crcStored) ∧ (o = 0x34 → v = s.crcCalc) ∧ (o = 0x38 → v = s.dataOff) ∧
      (o = 0x3C → v = s.errReg) ∧ (o = 0x40 → v.toNat = s.errInfo0.toNat % 2 ^ 32) ∧
      (o = 0x44 → v.toNat = s.errInfo0.toNat / 2 ^ 32) ∧ (o = 0x48 → v = s.errInfo1) ∧ (0x4C ≤ o → v = 0)

/-- 10_state.md R25, R31: what a permitted register write changes; a CMD write executes its word (30_encoding.md R81).
That a TYPE write clears TYPE_VALID and keeps every other bit of STATUS, OK among them, is the model's reading of R25
and R31 against vector T19's 0x480 (DEDUCED, log 16). -/
def Obligations.RegisterWritesFollowTheMap : Prop :=
  ∀ (s : State) (o : Nat) (d : BitVec 64) (rest : List HostAction),
    s.pending = .write (.reg o) 32 d :: rest → o % 4 = 0 → o < 0x100 →
    (o ≠ 0x08 →
      step s = .next { s with
        pending := rest
        base := if o = 0x10 then d.setWidth 32 else s.base
        avail := if o = 0x14 then d.setWidth 32 else s.avail
        din := if o = 0x18 then d.setWidth 8 else s.din
        typeCode := if o = 0x1C then d.setWidth 32 else s.typeCode
        acc := if o = 0x20 then d.setWidth 32 else s.acc
        status := if o = 0x1C then { s.status with typeValid := false } else s.status }) ∧
    (o = 0x08 → step s = executeWord (d.setWidth 32) { s with pending := rest })

/-- 20_memory.md R61: host accesses of IBUF bytes, and reset's effect on the marks. What an unwritten read observes
is a free value (log 4). -/
def Obligations.IbufHostAccesses : Prop :=
  (∀ (s : State) (k : Nat) (d : BitVec 64) (rest : List HostAction),
    s.pending = .write (.ibuf k) 8 d :: rest → k < s.params.ibufSize.toNat →
    ∃ m : Memory, step s = .next { s with pending := rest, ibuf := m } ∧
      m.read k = some (d.setWidth 8) ∧ (∀ j, j ≠ k → m.read j = s.ibuf.read j)) ∧
  (∀ (s : State) (k : Nat) (b : Byte) (rest : List HostAction),
    s.pending = .read (.ibuf k) 8 :: rest → k < s.params.ibufSize.toNat → s.ibuf.read k = some b →
    step s = .next { s with pending := rest, observed := ⟨.ibuf k, b.setWidth 32⟩ :: s.observed }) ∧
  (∀ (s : State) (k : Nat) (rest : List HostAction),
    s.pending = .read (.ibuf k) 8 :: rest → k < s.params.ibufSize.toNat → s.ibuf.read k = none →
    ∃ v n, step s = .next { s with pending := rest, observed := ⟨.ibuf k, v⟩ :: s.observed
                                   faulted := true, draws := n }) ∧
  (∀ (s : State) (k bits : Nat) (d : BitVec 64) (rest : List HostAction),
    s.pending = .write (.ibuf k) bits d :: rest ∨ s.pending = .read (.ibuf k) bits :: rest →
    (bits ≠ 8 ∨ s.params.ibufSize.toNat ≤ k) →
    step s = .next { s with pending := rest, faulted := true }) ∧
  (∀ (s t : State) (rest : List HostAction), s.pending = .reset :: rest → step s = .next t →
    ∀ k, t.ibuf.read k = none)

/-- 20_memory.md R61, R71, 30_encoding.md R88: a host that performs `load k, bs` and nothing else leaves exactly those
bytes written there, each with its mark, and every other offset and register as it was. The queue is the model's own
(log 2). -/
def Obligations.LoadWritesTheBytes : Prop :=
  ∀ (s : State) (k : Nat) (bs : List Byte) (rest : List HostAction),
    s.pending = loadLines k bs ++ rest → k + bs.length ≤ s.params.ibufSize.toNat →
    ∃ t : State, Sys2Proof.core.run bs.length s = .next t ∧ t = { s with pending := rest, ibuf := t.ibuf } ∧
      t.holds k bs ∧ ∀ j, j < k ∨ k + bs.length ≤ j → t.ibuf.read j = s.ibuf.read j

/-- 20_memory.md R66, 60_exceptions.md R219: every other access sets the fault flag and has no other effect: a register
access that is not 32 bits wide, misaligned or beyond the register block, an IBUF access that is not one byte or is
beyond P_IBUF_SIZE. -/
def Obligations.OtherAccessesAreRefused : Prop :=
  ∀ (s : State) (g : Target) (bits : Nat) (d : BitVec 64) (rest : List HostAction),
    s.pending = .write g bits d :: rest ∨ s.pending = .read g bits :: rest →
    ((∃ o, g = .reg o ∧ (bits ≠ 32 ∨ o % 4 ≠ 0 ∨ 0x100 ≤ o)) ∨
      ∃ k, g = .ibuf k ∧ (bits ≠ 8 ∨ s.params.ibufSize.toNat ≤ k)) →
    step s = .next { s with pending := rest, faulted := true }

/-- 10_state.md R57, 70_reset_and_hazards.md R240: reset, with the fault flag unchanged. -/
def Obligations.ResetRestoresEveryRegister : Prop :=
  ∀ (s : State) (rest : List HostAction), s.pending = .reset :: rest →
    ∃ n, step s = .next
      { params := s.params, status := ⟨false, false, false, false, false, false⟩, base := 0, avail := 0, din := 0
        typeCode := 0, acc := 0xFFFFFFFF, len := 0, span := 0, crcStored := 0, crcCalc := 0, dataOff := 0
        errReg := 0, errInfo0 := 0, errInfo1 := 0, ibuf := [], faulted := s.faulted, draws := n
        pending := rest, observed := s.observed }

/-- 10_state.md R23, R51, R57: what each register and each reserved offset reads after power-on, for every set of
parameters. -/
def Obligations.PowerOnReadsTheResetValues : Prop :=
  ∀ p : Params,
    ((State.powerOn p).readOffset 0x00 = 0x504E4743 ∧ (State.powerOn p).readOffset 0x04 = p.ibufSize ∧
     (State.powerOn p).readOffset 0x0C = 0x180 ∧ (State.powerOn p).readOffset 0x20 = 0xFFFFFFFF) ∧
    (∀ o ∈ [0x08, 0x10, 0x14, 0x18, 0x1C, 0x24, 0x28, 0x2C, 0x30, 0x34, 0x38, 0x3C, 0x40, 0x44, 0x48],
      (State.powerOn p).readOffset o = 0) ∧
    (∀ o, 0x4C ≤ o → o < 0x100 → o % 4 = 0 → (State.powerOn p).readOffset o = 0) ∧
    (∀ k, (State.powerOn p).ibuf.read k = none) ∧ (State.powerOn p).faulted = false

/-! ## Invariants -/

/-- 10_state.md R56: every step keeps "TYPE_VALID = 1 implies four letters in TYPE". -/
def Obligations.StepKeepsTypeValidMeansLetters : Prop :=
  ∀ s t : State, s.TypeInv → step s = .next t → t.TypeInv

/-- 10_state.md R31 to R34, R46, R48, R49: every step keeps what STATUS and the error record say together. That a TYPE
write keeps OK, so that EOS = 1 and CRC_MATCH = 1 go on meaning OK = 1 across it, is the model's reading of R25 and R31
against vector T19's 0x480 (DEDUCED, log 16). -/
def Obligations.StepKeepsStatusAndErrorRecordConsistent : Prop :=
  ∀ s t : State, s.StatusInv → step s = .next t → t.StatusInv

/-- 20_memory.md R60, R61, 10_state.md R44: every step keeps IBUF canonical and inside P_IBUF_SIZE, and SPAN = 12 +
LEN without wrap. The canonical form of the list is the model's own. -/
def Obligations.StepKeepsStorageCanonical : Prop :=
  ∀ s t : State, s.StorageInv → step s = .next t → t.StorageInv

/-- The invariants hold after power-on, for every set of parameters. -/
def Obligations.PowerOnMeetsTheInvariants : Prop := ∀ p : Params, (State.powerOn p).Inv

/-! ## A program's encoding -/

/-- 30_encoding.md R89, R87: a program's encoding is the sequence of its lines' bus transactions. A write's triple has
the data cut to the access width (log 14), a read's the value its step observes (log 3), or none where the read is refused
(log 6); reset is no bus access. A permitted read of a register or of a written IBUF byte has what stands there. The
queue is the model's own (log 2). -/
def Obligations.ProgramEncodingIsItsBusTransactions : Prop :=
  (∀ s : State, programEncoding [] s = []) ∧
  (∀ (a : HostAction) (rest : List HostAction) (s : State),
    ∃ t e, step { s with pending := a :: rest } = .next t ∧ programEncoding (a :: rest) s = e ++ programEncoding rest t ∧
      (∀ g bits d, a = .write g bits d →
        ∃ x : BitVec 64, x.toNat = d.toNat % 2 ^ bits ∧ e = [⟨.write, g, some x⟩]) ∧
      (∀ g bits v, a = .read g bits → t.observed = ⟨g, v⟩ :: s.observed → e = [⟨.read, g, some (v.setWidth 64)⟩]) ∧
      (∀ g bits, a = .read g bits → t.observed = s.observed → e = [⟨.read, g, none⟩]) ∧
      (a = .reset → e = []) ∧
      (∀ o, a = .read (.reg o) 32 → o % 4 = 0 → o < 0x100 →
        e = [⟨.read, .reg o, some ((s.readOffset o).setWidth 64)⟩]) ∧
      (∀ k b, a = .read (.ibuf k) 8 → k < s.params.ibufSize.toNat → s.ibuf.read k = some b →
        e = [⟨.read, .ibuf k, some (b.setWidth 64)⟩]))

/-- 30_encoding.md R88, R89: `load k, bs`, inside IBUF, encodes as the write triples (IBUF+k+i, bs[i]) in order. -/
def Obligations.LoadEncodesAsItsByteWrites : Prop :=
  ∀ (s : State) (k : Nat) (bs : List Byte), k + bs.length ≤ s.params.ibufSize.toNat →
    (programEncoding (loadLines k bs) s).length = bs.length ∧
    ∀ (i : Nat) (h : i < bs.length),
      (programEncoding (loadLines k bs) s)[i]? = some ⟨.write, .ibuf (k + i), some (bs[i].setWidth 64)⟩

/-- 30_encoding.md R89: an encoding does not depend on P_REG_BASE and P_IBUF_HOST_BASE, nor on any parameter but
P_IBUF_SIZE. That targets are offsets is R89's own form, which the model takes for its accesses too (log 9); that the two
timing parameters do not matter is log 8. -/
def Obligations.ProgramEncodingIgnoresTheBaseAddresses : Prop :=
  ∀ (lines : List HostAction) (s : State) (p : Params), p.ibufSize = s.params.ibufSize →
    programEncoding lines { s with params := p } = programEncoding lines s
end

