-- ==== Sys2Proof/Laws/State.lean ====
section
/-! SUPPORT. One lemma per field of State per named update, so that no proof unfolds a record update. -/

namespace Sys2Proof.Machine

/-! The failure procedure (60_exceptions.md R202), field by field. -/

@[simp] theorem State.raise_params (opc : Byte) (e : CmdError) (s : State) :
    (State.raise opc e s).params = s.params := rfl
@[simp] theorem State.raise_status (opc : Byte) (e : CmdError) (s : State) :
    (State.raise opc e s).status = statusFailed e.clearTv s.status := rfl
@[simp] theorem State.raise_base (opc : Byte) (e : CmdError) (s : State) :
    (State.raise opc e s).base = s.base := rfl
@[simp] theorem State.raise_avail (opc : Byte) (e : CmdError) (s : State) :
    (State.raise opc e s).avail = s.avail := rfl
@[simp] theorem State.raise_din (opc : Byte) (e : CmdError) (s : State) :
    (State.raise opc e s).din = s.din := rfl
@[simp] theorem State.raise_typeCode (opc : Byte) (e : CmdError) (s : State) :
    (State.raise opc e s).typeCode = s.typeCode := rfl
@[simp] theorem State.raise_acc (opc : Byte) (e : CmdError) (s : State) :
    (State.raise opc e s).acc = s.acc := rfl
@[simp] theorem State.raise_len (opc : Byte) (e : CmdError) (s : State) :
    (State.raise opc e s).len = s.len := rfl
@[simp] theorem State.raise_span (opc : Byte) (e : CmdError) (s : State) :
    (State.raise opc e s).span = s.span := rfl
@[simp] theorem State.raise_crcStored (opc : Byte) (e : CmdError) (s : State) :
    (State.raise opc e s).crcStored = s.crcStored := rfl
@[simp] theorem State.raise_crcCalc (opc : Byte) (e : CmdError) (s : State) :
    (State.raise opc e s).crcCalc = s.crcCalc := rfl
@[simp] theorem State.raise_dataOff (opc : Byte) (e : CmdError) (s : State) :
    (State.raise opc e s).dataOff = s.dataOff := rfl
@[simp] theorem State.raise_errReg (opc : Byte) (e : CmdError) (s : State) :
    (State.raise opc e s).errReg = errWord opc e := rfl
@[simp] theorem State.raise_errInfo0 (opc : Byte) (e : CmdError) (s : State) :
    (State.raise opc e s).errInfo0 = BitVec.ofNat 64 e.info0 := rfl
@[simp] theorem State.raise_errInfo1 (opc : Byte) (e : CmdError) (s : State) :
    (State.raise opc e s).errInfo1 = BitVec.ofNat 32 e.info1 := rfl
@[simp] theorem State.raise_ibuf (opc : Byte) (e : CmdError) (s : State) :
    (State.raise opc e s).ibuf = s.ibuf := rfl
@[simp] theorem State.raise_faulted (opc : Byte) (e : CmdError) (s : State) :
    (State.raise opc e s).faulted = s.faulted := rfl
@[simp] theorem State.raise_draws (opc : Byte) (e : CmdError) (s : State) :
    (State.raise opc e s).draws = s.draws := rfl
@[simp] theorem State.raise_pending (opc : Byte) (e : CmdError) (s : State) :
    (State.raise opc e s).pending = s.pending := rfl
@[simp] theorem State.raise_observed (opc : Byte) (e : CmdError) (s : State) :
    (State.raise opc e s).observed = s.observed := rfl

/-! The success procedure (60_exceptions.md R203), field by field. -/

@[simp] theorem State.finish_params (o : FinishOpts) (s : State) :
    (State.finish o s).params = s.params := rfl
@[simp] theorem State.finish_status (o : FinishOpts) (s : State) :
    (State.finish o s).status = statusFinished o s.status := rfl
@[simp] theorem State.finish_base (o : FinishOpts) (s : State) :
    (State.finish o s).base = s.base := rfl
@[simp] theorem State.finish_avail (o : FinishOpts) (s : State) :
    (State.finish o s).avail = s.avail := rfl
@[simp] theorem State.finish_din (o : FinishOpts) (s : State) :
    (State.finish o s).din = s.din := rfl
@[simp] theorem State.finish_typeCode (o : FinishOpts) (s : State) :
    (State.finish o s).typeCode = s.typeCode := rfl
@[simp] theorem State.finish_acc (o : FinishOpts) (s : State) :
    (State.finish o s).acc = s.acc := rfl
@[simp] theorem State.finish_len (o : FinishOpts) (s : State) :
    (State.finish o s).len = s.len := rfl
@[simp] theorem State.finish_span (o : FinishOpts) (s : State) :
    (State.finish o s).span = s.span := rfl
@[simp] theorem State.finish_crcStored (o : FinishOpts) (s : State) :
    (State.finish o s).crcStored = s.crcStored := rfl
@[simp] theorem State.finish_crcCalc (o : FinishOpts) (s : State) :
    (State.finish o s).crcCalc = s.crcCalc := rfl
@[simp] theorem State.finish_dataOff (o : FinishOpts) (s : State) :
    (State.finish o s).dataOff = s.dataOff := rfl
@[simp] theorem State.finish_errReg (o : FinishOpts) (s : State) :
    (State.finish o s).errReg = s.errReg := rfl
@[simp] theorem State.finish_errInfo0 (o : FinishOpts) (s : State) :
    (State.finish o s).errInfo0 = s.errInfo0 := rfl
@[simp] theorem State.finish_errInfo1 (o : FinishOpts) (s : State) :
    (State.finish o s).errInfo1 = s.errInfo1 := rfl
@[simp] theorem State.finish_ibuf (o : FinishOpts) (s : State) :
    (State.finish o s).ibuf = s.ibuf := rfl
@[simp] theorem State.finish_faulted (o : FinishOpts) (s : State) :
    (State.finish o s).faulted = s.faulted := rfl
@[simp] theorem State.finish_draws (o : FinishOpts) (s : State) :
    (State.finish o s).draws = s.draws := rfl
@[simp] theorem State.finish_pending (o : FinishOpts) (s : State) :
    (State.finish o s).pending = s.pending := rfl
@[simp] theorem State.finish_observed (o : FinishOpts) (s : State) :
    (State.finish o s).observed = s.observed := rfl

/-! Recording an unwritten read (60_exceptions.md R219), field by field. -/

@[simp] theorem State.noteUnwritten_params (u : Bool) (s : State) :
    (State.noteUnwritten u s).params = s.params := rfl
@[simp] theorem State.noteUnwritten_status (u : Bool) (s : State) :
    (State.noteUnwritten u s).status = s.status := rfl
@[simp] theorem State.noteUnwritten_base (u : Bool) (s : State) :
    (State.noteUnwritten u s).base = s.base := rfl
@[simp] theorem State.noteUnwritten_avail (u : Bool) (s : State) :
    (State.noteUnwritten u s).avail = s.avail := rfl
@[simp] theorem State.noteUnwritten_din (u : Bool) (s : State) :
    (State.noteUnwritten u s).din = s.din := rfl
@[simp] theorem State.noteUnwritten_typeCode (u : Bool) (s : State) :
    (State.noteUnwritten u s).typeCode = s.typeCode := rfl
@[simp] theorem State.noteUnwritten_acc (u : Bool) (s : State) :
    (State.noteUnwritten u s).acc = s.acc := rfl
@[simp] theorem State.noteUnwritten_len (u : Bool) (s : State) :
    (State.noteUnwritten u s).len = s.len := rfl
@[simp] theorem State.noteUnwritten_span (u : Bool) (s : State) :
    (State.noteUnwritten u s).span = s.span := rfl
@[simp] theorem State.noteUnwritten_crcStored (u : Bool) (s : State) :
    (State.noteUnwritten u s).crcStored = s.crcStored := rfl
@[simp] theorem State.noteUnwritten_crcCalc (u : Bool) (s : State) :
    (State.noteUnwritten u s).crcCalc = s.crcCalc := rfl
@[simp] theorem State.noteUnwritten_dataOff (u : Bool) (s : State) :
    (State.noteUnwritten u s).dataOff = s.dataOff := rfl
@[simp] theorem State.noteUnwritten_errReg (u : Bool) (s : State) :
    (State.noteUnwritten u s).errReg = s.errReg := rfl
@[simp] theorem State.noteUnwritten_errInfo0 (u : Bool) (s : State) :
    (State.noteUnwritten u s).errInfo0 = s.errInfo0 := rfl
@[simp] theorem State.noteUnwritten_errInfo1 (u : Bool) (s : State) :
    (State.noteUnwritten u s).errInfo1 = s.errInfo1 := rfl
@[simp] theorem State.noteUnwritten_ibuf (u : Bool) (s : State) :
    (State.noteUnwritten u s).ibuf = s.ibuf := rfl
@[simp] theorem State.noteUnwritten_faulted (u : Bool) (s : State) :
    (State.noteUnwritten u s).faulted = (u || s.faulted) := rfl
@[simp] theorem State.noteUnwritten_draws (u : Bool) (s : State) :
    (State.noteUnwritten u s).draws = (if u then s.draws + 1 else s.draws) := rfl
@[simp] theorem State.noteUnwritten_pending (u : Bool) (s : State) :
    (State.noteUnwritten u s).pending = s.pending := rfl
@[simp] theorem State.noteUnwritten_observed (u : Bool) (s : State) :
    (State.noteUnwritten u s).observed = s.observed := rfl

/-! The result registers of a decoded record (42_frame.md R146), field by field. -/

@[simp] theorem State.withRecord_params (s : State) (b : Nat) (r : FrameRecord) :
    (s.withRecord b r).params = s.params := rfl
@[simp] theorem State.withRecord_status (s : State) (b : Nat) (r : FrameRecord) :
    (s.withRecord b r).status = s.status := rfl
@[simp] theorem State.withRecord_base (s : State) (b : Nat) (r : FrameRecord) :
    (s.withRecord b r).base = s.base := rfl
@[simp] theorem State.withRecord_avail (s : State) (b : Nat) (r : FrameRecord) :
    (s.withRecord b r).avail = s.avail := rfl
@[simp] theorem State.withRecord_din (s : State) (b : Nat) (r : FrameRecord) :
    (s.withRecord b r).din = s.din := rfl
@[simp] theorem State.withRecord_typeCode (s : State) (b : Nat) (r : FrameRecord) :
    (s.withRecord b r).typeCode = BitVec.ofNat 32 (be32 r.type) := rfl
@[simp] theorem State.withRecord_acc (s : State) (b : Nat) (r : FrameRecord) :
    (s.withRecord b r).acc = s.acc := rfl
@[simp] theorem State.withRecord_len (s : State) (b : Nat) (r : FrameRecord) :
    (s.withRecord b r).len = BitVec.ofNat 32 r.len := rfl
@[simp] theorem State.withRecord_span (s : State) (b : Nat) (r : FrameRecord) :
    (s.withRecord b r).span = BitVec.ofNat 32 r.span := rfl
@[simp] theorem State.withRecord_crcStored (s : State) (b : Nat) (r : FrameRecord) :
    (s.withRecord b r).crcStored = r.stored := rfl
@[simp] theorem State.withRecord_crcCalc (s : State) (b : Nat) (r : FrameRecord) :
    (s.withRecord b r).crcCalc = r.computed := rfl
@[simp] theorem State.withRecord_dataOff (s : State) (b : Nat) (r : FrameRecord) :
    (s.withRecord b r).dataOff = BitVec.ofNat 32 (b + 8) := rfl
@[simp] theorem State.withRecord_errReg (s : State) (b : Nat) (r : FrameRecord) :
    (s.withRecord b r).errReg = s.errReg := rfl
@[simp] theorem State.withRecord_errInfo0 (s : State) (b : Nat) (r : FrameRecord) :
    (s.withRecord b r).errInfo0 = s.errInfo0 := rfl
@[simp] theorem State.withRecord_errInfo1 (s : State) (b : Nat) (r : FrameRecord) :
    (s.withRecord b r).errInfo1 = s.errInfo1 := rfl
@[simp] theorem State.withRecord_ibuf (s : State) (b : Nat) (r : FrameRecord) :
    (s.withRecord b r).ibuf = s.ibuf := rfl
@[simp] theorem State.withRecord_faulted (s : State) (b : Nat) (r : FrameRecord) :
    (s.withRecord b r).faulted = s.faulted := rfl
@[simp] theorem State.withRecord_draws (s : State) (b : Nat) (r : FrameRecord) :
    (s.withRecord b r).draws = s.draws := rfl
@[simp] theorem State.withRecord_pending (s : State) (b : Nat) (r : FrameRecord) :
    (s.withRecord b r).pending = s.pending := rfl
@[simp] theorem State.withRecord_observed (s : State) (b : Nat) (r : FrameRecord) :
    (s.withRecord b r).observed = s.observed := rfl

/-! A refused access (60_exceptions.md R219), field by field. -/

@[simp] theorem State.refuseAccess_params (s : State) :
    (s.refuseAccess).params = s.params := rfl
@[simp] theorem State.refuseAccess_status (s : State) :
    (s.refuseAccess).status = s.status := rfl
@[simp] theorem State.refuseAccess_base (s : State) :
    (s.refuseAccess).base = s.base := rfl
@[simp] theorem State.refuseAccess_avail (s : State) :
    (s.refuseAccess).avail = s.avail := rfl
@[simp] theorem State.refuseAccess_din (s : State) :
    (s.refuseAccess).din = s.din := rfl
@[simp] theorem State.refuseAccess_typeCode (s : State) :
    (s.refuseAccess).typeCode = s.typeCode := rfl
@[simp] theorem State.refuseAccess_acc (s : State) :
    (s.refuseAccess).acc = s.acc := rfl
@[simp] theorem State.refuseAccess_len (s : State) :
    (s.refuseAccess).len = s.len := rfl
@[simp] theorem State.refuseAccess_span (s : State) :
    (s.refuseAccess).span = s.span := rfl
@[simp] theorem State.refuseAccess_crcStored (s : State) :
    (s.refuseAccess).crcStored = s.crcStored := rfl
@[simp] theorem State.refuseAccess_crcCalc (s : State) :
    (s.refuseAccess).crcCalc = s.crcCalc := rfl
@[simp] theorem State.refuseAccess_dataOff (s : State) :
    (s.refuseAccess).dataOff = s.dataOff := rfl
@[simp] theorem State.refuseAccess_errReg (s : State) :
    (s.refuseAccess).errReg = s.errReg := rfl
@[simp] theorem State.refuseAccess_errInfo0 (s : State) :
    (s.refuseAccess).errInfo0 = s.errInfo0 := rfl
@[simp] theorem State.refuseAccess_errInfo1 (s : State) :
    (s.refuseAccess).errInfo1 = s.errInfo1 := rfl
@[simp] theorem State.refuseAccess_ibuf (s : State) :
    (s.refuseAccess).ibuf = s.ibuf := rfl
@[simp] theorem State.refuseAccess_faulted (s : State) :
    (s.refuseAccess).faulted = true := rfl
@[simp] theorem State.refuseAccess_draws (s : State) :
    (s.refuseAccess).draws = s.draws := rfl
@[simp] theorem State.refuseAccess_pending (s : State) :
    (s.refuseAccess).pending = s.pending := rfl
@[simp] theorem State.refuseAccess_observed (s : State) :
    (s.refuseAccess).observed = s.observed := rfl

/-! A recorded host read, field by field. -/

@[simp] theorem State.observe_params (s : State) (t : Target) (v : Word) :
    (s.observe t v).params = s.params := rfl
@[simp] theorem State.observe_status (s : State) (t : Target) (v : Word) :
    (s.observe t v).status = s.status := rfl
@[simp] theorem State.observe_base (s : State) (t : Target) (v : Word) :
    (s.observe t v).base = s.base := rfl
@[simp] theorem State.observe_avail (s : State) (t : Target) (v : Word) :
    (s.observe t v).avail = s.avail := rfl
@[simp] theorem State.observe_din (s : State) (t : Target) (v : Word) :
    (s.observe t v).din = s.din := rfl
@[simp] theorem State.observe_typeCode (s : State) (t : Target) (v : Word) :
    (s.observe t v).typeCode = s.typeCode := rfl
@[simp] theorem State.observe_acc (s : State) (t : Target) (v : Word) :
    (s.observe t v).acc = s.acc := rfl
@[simp] theorem State.observe_len (s : State) (t : Target) (v : Word) :
    (s.observe t v).len = s.len := rfl
@[simp] theorem State.observe_span (s : State) (t : Target) (v : Word) :
    (s.observe t v).span = s.span := rfl
@[simp] theorem State.observe_crcStored (s : State) (t : Target) (v : Word) :
    (s.observe t v).crcStored = s.crcStored := rfl
@[simp] theorem State.observe_crcCalc (s : State) (t : Target) (v : Word) :
    (s.observe t v).crcCalc = s.crcCalc := rfl
@[simp] theorem State.observe_dataOff (s : State) (t : Target) (v : Word) :
    (s.observe t v).dataOff = s.dataOff := rfl
@[simp] theorem State.observe_errReg (s : State) (t : Target) (v : Word) :
    (s.observe t v).errReg = s.errReg := rfl
@[simp] theorem State.observe_errInfo0 (s : State) (t : Target) (v : Word) :
    (s.observe t v).errInfo0 = s.errInfo0 := rfl
@[simp] theorem State.observe_errInfo1 (s : State) (t : Target) (v : Word) :
    (s.observe t v).errInfo1 = s.errInfo1 := rfl
@[simp] theorem State.observe_ibuf (s : State) (t : Target) (v : Word) :
    (s.observe t v).ibuf = s.ibuf := rfl
@[simp] theorem State.observe_faulted (s : State) (t : Target) (v : Word) :
    (s.observe t v).faulted = s.faulted := rfl
@[simp] theorem State.observe_draws (s : State) (t : Target) (v : Word) :
    (s.observe t v).draws = s.draws := rfl
@[simp] theorem State.observe_pending (s : State) (t : Target) (v : Word) :
    (s.observe t v).pending = s.pending := rfl
@[simp] theorem State.observe_observed (s : State) (t : Target) (v : Word) :
    (s.observe t v).observed = ⟨t, v⟩ :: s.observed := rfl

end Sys2Proof.Machine
end

