-- ==== Sys2Proof/Laws/Memory.lean ====
section
/-! SUPPORT. What IBUF's read, write, MemRead and the written-marks do: cited instead of unfolding them. -/

namespace Sys2Proof.Machine

theorem Memory.read_write_same (m : Memory) (k : Nat) (b : Byte) : (m.write k b).read k = some b := by
  induction m with
  | nil => simp [Memory.write, Memory.read]
  | cons c rest ih =>
    obtain ⟨k', b'⟩ := c
    unfold Memory.write
    split
    · simp [Memory.read]
    · split
      · simp [Memory.read]
      · simp [Memory.read, *]

theorem Memory.read_write_of_ne (m : Memory) {k j : Nat} (b : Byte) (h : j ≠ k) :
    (m.write k b).read j = m.read j := by
  induction m with
  | nil => simp [Memory.write, Memory.read, h]
  | cons c rest ih =>
    obtain ⟨k', b'⟩ := c
    unfold Memory.write
    split
    · simp [Memory.read, h]
    · split
      · rename_i hk
        subst hk
        simp [Memory.read, h]
      · simp [Memory.read, ih]

theorem Memory.mem_write {m : Memory} {k : Nat} {b : Byte} {c : Host.Cell} (h : c ∈ m.write k b) :
    c = (k, b) ∨ c ∈ m := by
  induction m with
  | nil => simpa [Memory.write] using h
  | cons d rest ih =>
    obtain ⟨k', b'⟩ := d
    unfold Memory.write at h
    split at h
    · simpa using h
    · split at h
      · simp only [List.mem_cons] at h ⊢
        exact h.imp id .inr
      · simp only [List.mem_cons] at h ⊢
        rcases h with h | h
        · exact .inr (.inl h)
        · exact (ih h).imp id .inr

/-- A write keeps the canonical form. -/
theorem Memory.wf_write {m : Memory} (h : m.wf) (k : Nat) (b : Byte) : (m.write k b).wf := by
  induction m with
  | nil => simp [Memory.write, Memory.wf]
  | cons c rest ih =>
    obtain ⟨k', b'⟩ := c
    have hc := List.pairwise_cons.mp h
    unfold Memory.write
    split
    · rename_i hk
      refine List.pairwise_cons.mpr ⟨fun c hm => ?_, h⟩
      rcases List.mem_cons.mp hm with rfl | hm
      · exact hk
      · exact Nat.lt_trans hk (hc.1 c hm)
    · split
      · rename_i hk
        subst hk
        exact List.pairwise_cons.mpr ⟨hc.1, hc.2⟩
      · refine List.pairwise_cons.mpr ⟨fun c hm => ?_, ih hc.2⟩
        rcases Memory.mem_write hm with rfl | hm
        · change k' < k
          omega
        · exact hc.1 c hm

/-- The canonical form of the empty memory reset leaves. -/
theorem Memory.wf_reset : State.reset.ibuf.wf := List.Pairwise.nil

@[simp] theorem State.memRead_length (s : State) (k n : Nat) : (s.memRead k n).length = n := by
  simp [State.memRead]

theorem State.memRead_add (s : State) (k n m : Nat) :
    s.memRead k (n + m) = s.memRead k n ++ s.memRead (k + n) m := by
  simp [State.memRead, ← List.range'_append_1]

/-- Holding a concatenation is holding its parts, one after the other. -/
theorem State.holds_append {s : State} {k : Nat} {a b : List Byte} :
    s.holds k (a ++ b) ↔ s.holds k a ∧ s.holds (k + a.length) b := by
  unfold State.holds
  rw [List.length_append, ← List.range'_append_1, List.map_append, List.map_append]
  exact ⟨fun h => List.append_inj h (by simp), fun h => by rw [h.1, h.2]⟩

/-- MemRead of bytes the host wrote gives them (20_memory.md R62). -/
theorem State.memRead_of_holds {s : State} {k : Nat} {bs : List Byte} (h : s.holds k bs) :
    s.memRead k bs.length = bs := by
  apply List.ext_getElem (by simp)
  intro i h1 h2
  have hi : s.ibuf.read (k + i) = some bs[i] := by
    have := congrArg (fun l => l[i]?) h
    simpa [h2] using this
  simp [State.memRead, State.byteAt, hi]

/-- Bytes the host wrote are not unwritten (20_memory.md R62). -/
theorem State.unwritten_of_holds {s : State} {k : Nat} {bs : List Byte} (h : s.holds k bs) :
    s.unwritten k bs.length = false := by
  simp only [State.unwritten, List.any_eq_false, List.mem_range'_1]
  intro j hj
  obtain ⟨i, rfl⟩ := Nat.exists_eq_add_of_le hj.1
  have h2 : i < bs.length := by omega
  have := congrArg (fun l => l[i]?) h
  have hi : s.ibuf.read (k + i) = some bs[i] := by simpa [h2] using this
  simp [hi]

/-- A window that fits passes the window check (20_memory.md R63). -/
theorem State.windowCheck_of_fits {s : State} (h : s.windowFits) : s.windowCheck = none := by
  unfold State.windowCheck
  exact if_neg (by omega)

/-- A window that does not fit fails the window check with BAD_WINDOW(BASE, AVAIL) (20_memory.md R63). -/
theorem State.windowCheck_of_not_fits {s : State} (h : ¬ s.windowFits) :
    s.windowCheck = some { kind := .badWindow, info0 := s.base.toNat, info1 := s.avail.toNat } := by
  unfold State.windowCheck
  exact if_pos (by omega)

/-- The written-marks of a range, cut in two (20_memory.md R62). -/
theorem State.unwritten_add (s : State) (k n m : Nat) :
    s.unwritten k (n + m) = (s.unwritten k n || s.unwritten (k + n) m) := by
  simp [State.unwritten, ← List.range'_append_1]

/-- A range with no unwritten byte holds what MemRead reads there. -/
theorem State.holds_memRead {s : State} {b n : Nat} (h : s.unwritten b n = false) :
    s.holds b (s.memRead b n) := by
  unfold State.holds
  rw [State.memRead_length, State.memRead, List.map_map]
  apply List.map_congr_left
  intro j hj
  simp only [State.unwritten, List.any_eq_false] at h
  have hj' := h j hj
  cases hr : s.ibuf.read j
  · simp [hr] at hj'
  · simp [State.byteAt, hr]

end Sys2Proof.Machine
end

