-- ==== Sys2Proof/Laws/Operands.lean ====
section
/-! SUPPORT. What the operand functions do: big-endian values and their bytes, the letter test, the scan. -/

namespace Sys2Proof.Machine

@[simp] theorem bytesBe32_length (v : Nat) : (bytesBe32 v).length = 4 := rfl

@[simp] theorem typeBytes_length (t : Word) : (typeBytes t).length = 4 := rfl

theorem be32_four (a b c d : Byte) :
    be32 [a, b, c, d] = a.toNat * 2 ^ 24 + b.toNat * 2 ^ 16 + c.toNat * 2 ^ 8 + d.toNat := by
  simp only [be32, List.foldl]
  omega

theorem be32_lt {s : List Byte} (h : s.length = 4) : be32 s < 2 ^ 32 := by
  obtain ⟨a, b, c, d, rfl⟩ : ∃ a b c d, s = [a, b, c, d] := by
    match s, h with
    | [a, b, c, d], _ => exact ⟨a, b, c, d, rfl⟩
  rw [be32_four]
  have := a.isLt; have := b.isLt; have := c.isLt; have := d.isLt
  omega

theorem be32_bytesBe32 {v : Nat} (h : v < 2 ^ 32) : be32 (bytesBe32 v) = v := by
  rw [bytesBe32, be32_four]
  simp only [BitVec.toNat_ofNat]
  omega

theorem bytesBe32_be32 {s : List Byte} (h : s.length = 4) : bytesBe32 (be32 s) = s := by
  obtain ⟨a, b, c, d, rfl⟩ : ∃ a b c d, s = [a, b, c, d] := by
    match s, h with
    | [a, b, c, d], _ => exact ⟨a, b, c, d, rfl⟩
  rw [be32_four]
  have := a.isLt; have := b.isLt; have := c.isLt; have := d.isLt
  simp only [bytesBe32, List.cons.injEq, and_true]
  refine ⟨?_, ?_, ?_, ?_⟩ <;> apply BitVec.eq_of_toNat_eq <;> rw [BitVec.toNat_ofNat] <;> omega

/-- TYPE loaded from four bytes gives those bytes back (10_state.md R40). -/
theorem typeBytes_be32 {s : List Byte} (h : s.length = 4) : typeBytes (BitVec.ofNat 32 (be32 s)) = s := by
  rw [typeBytes, BitVec.toNat_ofNat, Nat.mod_eq_of_lt (be32_lt h), bytesBe32_be32 h]

theorem isLetter_iff (b : Byte) : isLetter b = true ↔ Letter b := by
  simp [isLetter, Letter]

theorem typeScanFrom_eq_none_iff (i : Nat) (t : List Byte) :
    typeScanFrom i t = none ↔ ∀ b ∈ t, Letter b := by
  induction t generalizing i with
  | nil => simp [typeScanFrom]
  | cons b t ih =>
    unfold typeScanFrom
    split
    · rename_i hb
      simp [ih, (isLetter_iff b).mp hb]
    · rename_i hb
      rw [isLetter_iff] at hb
      simp [hb]

/-- TypeScan answers `ok` exactly when every byte is a letter (40_type.md R101). -/
theorem typeScan_eq_none_iff (t : List Byte) : typeScan t = none ↔ ∀ b ∈ t, Letter b :=
  typeScanFrom_eq_none_iff 0 t

theorem typeScanFrom_append {i : Nat} {t : List Byte} (h : ∀ b ∈ t, Letter b) {c : Byte} (hc : ¬ Letter c)
    (r : List Byte) : typeScanFrom i (t ++ c :: r) = some (i + t.length, c) := by
  induction t generalizing i with
  | nil => simp [typeScanFrom, (isLetter_iff c).not.mpr hc]
  | cons b t ih =>
    have hb := (isLetter_iff b).mpr (h b (by simp))
    simp only [List.cons_append, typeScanFrom, hb, if_true, List.length_cons]
    rw [ih (fun x hx => h x (by simp [hx]))]
    simp only [Option.some.injEq, Prod.mk.injEq, and_true]
    omega

/-- TypeScan reports the first non-letter, with its index (40_type.md R101). -/
theorem typeScan_append {t : List Byte} (h : ∀ b ∈ t, Letter b) {c : Byte} (hc : ¬ Letter c) (r : List Byte) :
    typeScan (t ++ c :: r) = some (t.length, c) := by
  simpa [typeScan] using typeScanFrom_append (i := 0) h hc r

/-- The bytes of a TYPE value, by their bit fields (10_state.md R40). -/
theorem typeBytes_eq (t : Word) : typeBytes t = [typeByte t 0, typeByte t 1, typeByte t 2, typeByte t 3] := by
  simp only [typeBytes, bytesBe32, List.cons.injEq, and_true]
  refine ⟨?_, ?_, ?_, ?_⟩ <;> apply BitVec.eq_of_toNat_eq <;>
    simp [BitVec.extractLsb'_toNat, Nat.shiftRight_eq_div_pow]

/-- TypeScan on TYPE answers `ok` exactly for four letters (40_type.md R101). -/
theorem typeScan_typeBytes_none_iff {t : Word} :
    typeScan (typeBytes t) = none ↔ ∀ i < 4, Letter (typeByte t i) := by
  rw [typeScan_eq_none_iff, typeBytes_eq]
  constructor
  · intro h i hi
    apply h
    match i, hi with
    | 0, _ => simp
    | 1, _ => simp
    | 2, _ => simp
    | 3, _ => simp
  · intro h b hb
    simp only [List.mem_cons, List.not_mem_nil, or_false] at hb
    rcases hb with rfl | rfl | rfl | rfl
    exacts [h 0 (by decide), h 1 (by decide), h 2 (by decide), h 3 (by decide)]

/-- TypeScan on TYPE reports the first byte that is not a letter (40_type.md R101). -/
theorem typeScan_typeBytes_some {t : Word} {i : Nat} (hi : i < 4) (h : ∀ j < i, Letter (typeByte t j))
    (hn : ¬ Letter (typeByte t i)) : typeScan (typeBytes t) = some (i, typeByte t i) := by
  rw [typeBytes_eq]
  match i, hi with
  | 0, _ => exact typeScan_append (t := []) (by simp) hn _
  | 1, _ => exact typeScan_append (t := [typeByte t 0]) (by simpa using h 0 (by omega)) hn _
  | 2, _ =>
    exact typeScan_append (t := [typeByte t 0, typeByte t 1])
      (by simpa using ⟨h 0 (by omega), h 1 (by omega)⟩) hn _
  | 3, _ =>
    exact typeScan_append (t := [typeByte t 0, typeByte t 1, typeByte t 2])
      (by simpa using ⟨h 0 (by omega), h 1 (by omega), h 2 (by omega)⟩) hn _

theorem typeScanFrom_lt {i n : Nat} {t : List Byte} {c : Byte} (h : typeScanFrom i t = some (n, c)) :
    n < i + t.length := by
  induction t generalizing i with
  | nil => simp [typeScanFrom] at h
  | cons b t ih =>
    unfold typeScanFrom at h
    split at h
    · have := ih h
      simp only [List.length_cons]
      omega
    · simp only [Option.some.injEq, Prod.mk.injEq] at h
      simp only [List.length_cons]
      omega

/-- The index TypeScan reports is one of the sequence's. -/
theorem typeScan_lt {n : Nat} {t : List Byte} {c : Byte} (h : typeScan t = some (n, c)) : n < t.length := by
  have := typeScanFrom_lt h
  omega

end Sys2Proof.Machine
end

