-- ==== Sys2Proof/Laws/Flags.lean ====
section
/-! SUPPORT. ERR as a number and its fields (10_state.md R48, 60_exceptions.md R202). -/

namespace Sys2Proof.Machine

/-- ERR is `KIND + 2^8·wrapped + 2^9·sub + 2^10·s + 2^16·opc` (60_exceptions.md R202). -/
theorem packErr_eq_sum (opc kind : Byte) (w sb : Bool) (st : BitVec 2) :
    packErr opc kind w sb st = BitVec.ofNat 32
      (kind.toNat + 2 ^ 8 * w.toNat + 2 ^ 9 * sb.toNat + 2 ^ 10 * st.toNat + 2 ^ 16 * opc.toNat) := by
  have app : ∀ {m n : Nat} (x : BitVec m) (y : BitVec n), (x ++ y).toNat = x.toNat * 2 ^ n + y.toNat := by
    intro m n x y
    rw [BitVec.toNat_append, Nat.shiftLeft_eq, Nat.mul_comm, Nat.two_pow_add_eq_or_of_lt y.isLt]
  apply BitVec.eq_of_toNat_eq
  have := opc.isLt; have := st.isLt; have := kind.isLt
  have hw : w.toNat < 2 := by cases w <;> decide
  have hs : sb.toNat < 2 := by cases sb <;> decide
  simp only [packErr, app, BitVec.toNat_ofBool, BitVec.toNat_ofNat]
  omega

theorem packErr_toNat (opc kind : Byte) (w sb : Bool) (st : BitVec 2) :
    (packErr opc kind w sb st).toNat =
      kind.toNat + 2 ^ 8 * w.toNat + 2 ^ 9 * sb.toNat + 2 ^ 10 * st.toNat + 2 ^ 16 * opc.toNat := by
  have := opc.isLt; have := st.isLt; have := kind.isLt; have := w.toNat_le; have := sb.toNat_le
  rw [packErr_eq_sum, BitVec.toNat_ofNat]
  omega

@[simp] theorem errKindField_packErr (opc kind : Byte) (w sb : Bool) (st : BitVec 2) :
    errKindField (packErr opc kind w sb st) = kind := by
  have := kind.isLt
  apply BitVec.eq_of_toNat_eq
  rw [errKindField, BitVec.extractLsb'_toNat, packErr_toNat, Nat.shiftRight_eq_div_pow]
  omega

@[simp] theorem errWrappedField_packErr (opc kind : Byte) (w sb : Bool) (st : BitVec 2) :
    errWrappedField (packErr opc kind w sb st) = w := by
  have := kind.isLt
  rw [errWrappedField, BitVec.getLsbD, packErr_toNat, Nat.testBit_eq_decide_div_mod_eq]
  cases w <;> simp <;> omega

@[simp] theorem errSubField_packErr (opc kind : Byte) (w sb : Bool) (st : BitVec 2) :
    errSubField (packErr opc kind w sb st) = sb := by
  have := kind.isLt; have := w.toNat_le
  rw [errSubField, BitVec.getLsbD, packErr_toNat, Nat.testBit_eq_decide_div_mod_eq]
  cases sb <;> simp <;> omega

@[simp] theorem errStageField_packErr (opc kind : Byte) (w sb : Bool) (st : BitVec 2) :
    errStageField (packErr opc kind w sb st) = st := by
  have := kind.isLt; have := st.isLt; have := w.toNat_le; have := sb.toNat_le
  apply BitVec.eq_of_toNat_eq
  rw [errStageField, BitVec.extractLsb'_toNat, packErr_toNat, Nat.shiftRight_eq_div_pow]
  omega

@[simp] theorem errOpcField_packErr (opc kind : Byte) (w sb : Bool) (st : BitVec 2) :
    errOpcField (packErr opc kind w sb st) = opc := by
  have := kind.isLt; have := st.isLt; have := opc.isLt; have := w.toNat_le; have := sb.toNat_le
  apply BitVec.eq_of_toNat_eq
  rw [errOpcField, BitVec.extractLsb'_toNat, packErr_toNat, Nat.shiftRight_eq_div_pow]
  omega

/-- ERR's reserved bits are written 0 (10_state.md R48). -/
theorem packErr_reserved (opc kind : Byte) (w sb : Bool) (st : BitVec 2) :
    (packErr opc kind w sb st).extractLsb' 12 4 = 0 ∧ (packErr opc kind w sb st).extractLsb' 24 8 = 0 := by
  have := kind.isLt; have := st.isLt; have := opc.isLt; have := w.toNat_le; have := sb.toNat_le
  constructor <;> apply BitVec.eq_of_toNat_eq <;>
    rw [BitVec.extractLsb'_toNat, packErr_toNat, Nat.shiftRight_eq_div_pow] <;> simp <;> omega

end Sys2Proof.Machine
end

