-- ==== Sys2Proof/Laws/Command.lean ====
section
/-! SUPPORT. What a command can do, said once: it fails through `raise` or succeeds through `finish`. -/

namespace Sys2Proof.Machine

/-- The result each command computes before it is completed. -/
def cmdResult : Instr → State → CmdResult
  | .nop, s => { result := .ok ({}, s) }
  | .clear, s =>
    { result := .ok ({}, { s with errReg := 0, errInfo0 := 0, errInfo1 := 0,
                                  status := { s.status with errSticky := false } }) }
  | .typeCheck, s => typeCheckResult s
  | .typeParse, s => typeParseResult s
  | .crcInit, s => { result := .ok ({}, { s with acc := Config.crcInit }) }
  | .crcByte, s => { result := .ok ({}, { s with acc := crcUpd s.acc s.din }) }
  | .crcBuf, s => crcBufResult s
  | .slice, s => sliceResult s
  | .decode, s => decodeResult s
  | .next, s => nextResult s
  | .construct, s => constructResult s

/-- Every command completes its result; none stops (60_exceptions.md R219). -/
theorem exec_eq_complete (i : Instr) (s : State) :
    exec i s = .next (State.complete (opcodeOf i) s (cmdResult i s)) := by
  cases i <;> rfl

@[simp] theorem State.complete_error (opc : Byte) (s : State) (u : Bool) (e : CmdError) :
    State.complete opc s ⟨u, .error e⟩ = State.noteUnwritten u (State.raise opc e s) := rfl

@[simp] theorem State.complete_ok (opc : Byte) (s : State) (u : Bool) (o : FinishOpts) (staged : State) :
    State.complete opc s ⟨u, .ok (o, staged)⟩ = State.noteUnwritten u (State.finish o staged) := rfl

/-- Everything a command can do: it recorded an error on the state it started from, or it finished with what it
staged (60_exceptions.md R202, R203). -/
theorem exec_cases {i : Instr} {s t : State} (h : exec i s = .next t) :
    (∃ e, (cmdResult i s).result = .error e ∧
      t = State.noteUnwritten (cmdResult i s).unwritten (State.raise (opcodeOf i) e s)) ∨
    (∃ o staged, (cmdResult i s).result = .ok (o, staged) ∧
      t = State.noteUnwritten (cmdResult i s).unwritten (State.finish o staged)) := by
  rw [exec_eq_complete] at h
  obtain rfl := Host.Outcome.next.inj h
  rcases hr : (cmdResult i s).result with e | ⟨o, staged⟩
  · exact .inl ⟨e, rfl, by simp [State.complete, hr]⟩
  · exact .inr ⟨o, staged, rfl, by simp [State.complete, hr]⟩

/-- Recording no unwritten read changes nothing. -/
@[simp] theorem State.noteUnwritten_false (s : State) : State.noteUnwritten false s = s := by
  simp [State.noteUnwritten]

/-- A word that decodes runs its command; any other raises ILLEGAL_CMD (30_encoding.md R81). -/
theorem executeWord_of_decode {w : Word} {i : Instr} (h : decode w = .ok i) (s : State) :
    executeWord w s = exec i s := by
  simp [executeWord, h]

theorem executeWord_of_reject {w : Word} {r : DecodeReject} (h : decode w = .error r) (s : State) :
    executeWord w s = .next (State.raise (opcField w) (illegalError w) s) := by
  simp [executeWord, h]

/-- A step performs the oldest pending action (20_memory.md R71). -/
theorem step_cons {s : State} {a : HostAction} {rest : List HostAction} (h : s.pending = a :: rest) :
    step s = performAction a { s with pending := rest } := by
  simp [step, stepPending, h]

theorem step_nil {s : State} (h : s.pending = []) : step s = .next s := by
  simp [step, stepPending, h]

end Sys2Proof.Machine
end

