-- ==== Sys2Proof/Laws/Bus.lean ====
section
/-! SUPPORT. What a step can do, said once: which host action it performs and what that leaves (00_scope.md R13). -/

namespace Sys2Proof.Machine

theorem findReg_some {o : Nat} {l : List Reg} {r : Reg} (h : findReg o l = some r) : o = regOffset r := by
  induction l with
  | nil => simp [findReg] at h
  | cons r' l ih =>
    unfold findReg at h
    split at h
    · rename_i e
      simp only [Option.some.injEq] at h
      subst h
      exact e.symm
    · exact ih h

theorem findReg_none {o : Nat} {l : List Reg} (h : findReg o l = none) : ∀ r ∈ l, regOffset r ≠ o := by
  induction l with
  | nil => simp
  | cons r' l ih =>
    unfold findReg at h
    split at h
    · simp at h
    · rename_i hne
      intro r hr
      rcases List.mem_cons.1 hr with rfl | hr
      · exact hne
      · exact ih h r hr

/-- The register at an offset stands there (10_state.md R23). -/
theorem regAt_some {o : Nat} {r : Reg} (h : regAt o = some r) : o = regOffset r := findReg_some h

/-- No register stands at a reserved offset (10_state.md R51). -/
theorem regAt_none {o : Nat} (h : regAt o = none) (r : Reg) : regOffset r ≠ o :=
  findReg_none h r (by cases r <;> decide)

/-- What a CMD write can do (30_encoding.md R81). -/
theorem executeWord_cases {w : Word} {s t : State} (h : executeWord w s = .next t) :
    (∃ i, decode w = .ok i ∧ exec i s = .next t) ∨
    (∃ r, decode w = .error r ∧ t = State.raise (opcField w) (illegalError w) s) := by
  rcases hd : decode w with r | i
  · rw [executeWord_of_reject hd] at h
    exact .inr ⟨r, rfl, (Host.Outcome.next.inj h).symm⟩
  · rw [executeWord_of_decode hd] at h
    exact .inl ⟨i, rfl, h⟩

/-- Every host action and what it leaves: a CMD write, a permitted write of another register or reserved offset, a
refused access, a permitted IBUF write, a permitted register read, a permitted IBUF read, reset. -/
theorem performAction_cases {a : HostAction} {s t : State} (h : performAction a s = .next t) :
    (∃ d, a = .write (.reg 0x08) 32 d ∧ executeWord (d.setWidth 32) s = .next t) ∨
    (∃ o d, a = .write (.reg o) 32 d ∧ o ≠ 0x08 ∧ regAccessOk o 32 = true ∧
      ((∃ r, regAt o = some r ∧ t = s.writeReg (d.setWidth 32) r) ∨ (regAt o = none ∧ t = s))) ∨
    t = s.refuseAccess ∨
    (∃ k d, a = .write (.ibuf k) 8 d ∧ k < s.params.ibufSize.toNat ∧
      t = { s with ibuf := s.ibuf.write k (d.setWidth 8) }) ∨
    (∃ o, a = .read (.reg o) 32 ∧ t = s.observe (.reg o) (s.readOffset o)) ∨
    (∃ k, a = .read (.ibuf k) 8 ∧ k < s.params.ibufSize.toNat ∧ t = hostReadIbuf k s) ∨
    (a = .reset ∧ t = hostReset s) := by
  unfold performAction at h
  split at h
  · rename_i o b d
    split at h
    · rename_i hok
      have hb : b = 32 := by
        simp only [regAccessOk, Bool.and_eq_true, beq_iff_eq] at hok
        exact hok.1.1
      subst hb
      by_cases h8 : o = 0x08
      · subst h8
        exact .inl ⟨d, rfl, h⟩
      · refine .inr (.inl ⟨o, d, rfl, h8, hok, ?_⟩)
        unfold hostWriteReg at h
        split at h
        · rename_i hr
          exact absurd (regAt_some hr) h8
        · rename_i r _ hr
          exact .inl ⟨r, hr, (Host.Outcome.next.inj h).symm⟩
        · rename_i hr
          exact .inr ⟨hr, (Host.Outcome.next.inj h).symm⟩
    · exact .inr (.inr (.inl (Host.Outcome.next.inj h).symm))
  · rename_i k b d
    split at h
    · rename_i hok
      simp only [ibufAccessOk, Bool.and_eq_true, beq_iff_eq, decide_eq_true_eq] at hok
      obtain ⟨rfl, hk⟩ := hok
      exact .inr (.inr (.inr (.inl ⟨k, d, rfl, hk, (Host.Outcome.next.inj h).symm⟩)))
    · exact .inr (.inr (.inl (Host.Outcome.next.inj h).symm))
  · rename_i o b
    split at h
    · rename_i hok
      have hb : b = 32 := by
        simp only [regAccessOk, Bool.and_eq_true, beq_iff_eq] at hok
        exact hok.1.1
      subst hb
      exact .inr (.inr (.inr (.inr (.inl ⟨o, rfl, (Host.Outcome.next.inj h).symm⟩))))
    · exact .inr (.inr (.inl (Host.Outcome.next.inj h).symm))
  · rename_i k b
    split at h
    · rename_i hok
      simp only [ibufAccessOk, Bool.and_eq_true, beq_iff_eq, decide_eq_true_eq] at hok
      obtain ⟨rfl, hk⟩ := hok
      exact .inr (.inr (.inr (.inr (.inr (.inl ⟨k, rfl, hk, (Host.Outcome.next.inj h).symm⟩)))))
    · exact .inr (.inr (.inl (Host.Outcome.next.inj h).symm))
  · exact .inr (.inr (.inr (.inr (.inr (.inr ⟨rfl, (Host.Outcome.next.inj h).symm⟩)))))

/-- A step is idle or performs the oldest pending action (20_memory.md R71). -/
theorem step_cases {s t : State} (h : step s = .next t) : (s.pending = [] ∧ t = s) ∨
    ∃ a rest, s.pending = a :: rest ∧ performAction a { s with pending := rest } = .next t := by
  rcases hp : s.pending with _ | ⟨a, rest⟩
  · rw [step_nil hp] at h
    exact .inl ⟨rfl, (Host.Outcome.next.inj h).symm⟩
  · rw [step_cons hp] at h
    exact .inr ⟨a, rest, rfl, h⟩

end Sys2Proof.Machine
end

