-- ==== Sys2Proof/Laws/Crc.lean ====
section
/-! SUPPORT. The CRC step (41_crc.md R121): it can be undone, and bits above the ones it reads pass through it. -/

namespace Sys2Proof.Machine

/-- The top bit of a step's result is the bit shifted out: POLY's bit 31 is 1. -/
theorem crcStep_top (a : Word) : (crcStep a).getLsbD 31 = a.getLsbD 0 := by
  have hz : (a >>> 1).getLsbD 31 = false := by
    rw [BitVec.getLsbD_ushiftRight]
    exact BitVec.getLsbD_of_ge a _ (by omega)
  unfold crcStep
  split
  · rename_i h
    rw [BitVec.getLsbD_xor, hz, h]
    decide
  · rename_i h
    rw [hz]
    simpa using h

/-- Two accumulators with one step result are equal. -/
theorem crcStep_injective {a b : Word} (h : crcStep a = crcStep b) : a = b := by
  have key : a.getLsbD 0 = b.getLsbD 0 := by rw [← crcStep_top, h, crcStep_top]
  unfold crcStep at h
  have hs : a >>> 1 = b >>> 1 := by
    rw [key] at h
    split at h
    · exact (BitVec.xor_left_inj Config.poly).1 h
    · exact h
  apply BitVec.eq_of_getLsbD_eq
  intro i hi
  rcases i with _ | i
  · exact key
  · have h' := congrArg (fun w : Word => w.getLsbD i) hs
    simpa [BitVec.getLsbD_ushiftRight, Nat.add_comm] using h'

theorem crcSteps_injective {n : Nat} {a b : Word} (h : crcSteps n a = crcSteps n b) : a = b := by
  induction n generalizing a b with
  | zero => exact h
  | succ n ih => exact crcStep_injective (ih h)

theorem crcStep_xor (a b : Word) (hb : b.getLsbD 0 = false) : crcStep (a ^^^ b) = crcStep a ^^^ (b >>> 1) := by
  unfold crcStep
  have h0 : (a ^^^ b).getLsbD 0 = a.getLsbD 0 := by
    rw [BitVec.getLsbD_xor, hb]
    simp
  rw [h0]
  split
  · rw [BitVec.ushiftRight_xor_distrib]
    ac_rfl
  · rw [BitVec.ushiftRight_xor_distrib]

/-- `n` steps shift the bits from `n` up, whatever the low bits are. -/
theorem crcSteps_xor (n : Nat) (a b : Word) (hb : ∀ i < n, b.getLsbD i = false) :
    crcSteps n (a ^^^ b) = crcSteps n a ^^^ (b >>> n) := by
  induction n generalizing a b with
  | zero => simp [crcSteps]
  | succ n ih =>
    simp only [crcSteps]
    rw [crcStep_xor _ _ (hb 0 (by omega)), ih]
    · rw [← BitVec.shiftRight_add, Nat.add_comm]
    · intro i hi
      rw [BitVec.getLsbD_ushiftRight]
      exact hb _ (by omega)

end Sys2Proof.Machine
end

