-- ==== Sys2Proof/Laws/Decode.lean ====
section
/-! SUPPORT. The fields of a command word and the opcode map's rows (30_encoding.md R80, R82). -/

namespace Sys2Proof

/-- A map row holds its command's OPC (R82). -/
theorem lookupOpc_some {o : Byte} {i : Instr} (h : lookupOpc o opcodeMap = some i) : o = opcodeOf i := by
  simp only [opcodeMap, lookupOpc] at h
  repeat' split at h
  all_goals simp_all
  all_goals (subst h; rfl)

/-- RSVD = 0 says that the word is below 256 (R80). -/
theorem rsvdField_eq_zero_iff (w : Word) : rsvdField w = 0 ↔ w.toNat < 256 := by
  have hw := w.isLt
  have h0 : (0 : BitVec 24).toNat = 0 := rfl
  rw [rsvdField, ← BitVec.toNat_inj, h0, BitVec.extractLsb'_toNat, Nat.shiftRight_eq_div_pow]
  omega

/-- OPC as a number (R80). -/
theorem opcField_toNat (w : Word) : (opcField w).toNat = w.toNat % 256 := by
  simp [opcField, BitVec.extractLsb'_toNat]

/-- A command's word as a number (R82). -/
theorem encode_toNat (i : Instr) : (encode i).toNat = (opcodeOf i).toNat := by cases i <;> rfl

end Sys2Proof
end

