-- ==== Sys2Proof/Laws/Results.lean ====
section
/-! SUPPORT. Every way each command's result can come out, one case lemma per command and per core function, and
what the cores answer over a frame the host wrote. -/

namespace Sys2Proof.Machine

/-- The two answers of the window check (20_memory.md R63). -/
theorem windowCheck_cases (s : State) :
    (s.windowFits ∧ s.windowCheck = none) ∨
    (¬ s.windowFits ∧
      s.windowCheck = some { kind := .badWindow, info0 := s.base.toNat, info1 := s.avail.toNat }) := by
  by_cases h : s.windowFits
  · exact .inl ⟨h, State.windowCheck_of_fits h⟩
  · exact .inr ⟨h, State.windowCheck_of_not_fits h⟩

/-- TYPE_CHECK (40_type.md R103). -/
theorem typeCheckResult_cases (s : State) :
    (∃ i b, typeScan (typeBytes s.typeCode) = some (i, b) ∧ typeCheckResult s =
      ⟨false, .error { kind := .invalidCharacter, info0 := i, info1 := b.toNat, clearTv := true }⟩) ∨
    (typeScan (typeBytes s.typeCode) = none ∧ typeCheckResult s = ⟨false, .ok ({ setTv := true }, s)⟩) := by
  unfold typeCheckResult
  rcases h : typeScan (typeBytes s.typeCode) with _ | ⟨i, b⟩
  · exact .inr ⟨rfl, rfl⟩
  · exact .inl ⟨i, b, rfl, rfl⟩

/-- TYPE_PARSE (40_type.md R104). -/
theorem typeParseResult_cases (s : State) :
    (¬ s.windowFits ∧ typeParseResult s =
      ⟨false, .error { kind := .badWindow, info0 := s.base.toNat, info1 := s.avail.toNat }⟩) ∨
    (s.windowFits ∧ s.avail.toNat ≠ 4 ∧ typeParseResult s =
      ⟨false, .error { kind := .invalidLength, info0 := s.avail.toNat, info1 := 0 }⟩) ∨
    (∃ i b, s.windowFits ∧ s.avail.toNat = 4 ∧ typeScan (s.memRead s.base.toNat 4) = some (i, b) ∧
      typeParseResult s = ⟨s.unwritten s.base.toNat 4,
        .error { kind := .invalidCharacter, info0 := i, info1 := b.toNat }⟩) ∨
    (s.windowFits ∧ s.avail.toNat = 4 ∧ typeScan (s.memRead s.base.toNat 4) = none ∧
      typeParseResult s = ⟨s.unwritten s.base.toNat 4,
        .ok ({ setTv := true }, { s with typeCode := BitVec.ofNat 32 (be32 (s.memRead s.base.toNat 4)) })⟩) := by
  unfold typeParseResult
  rcases windowCheck_cases s with ⟨hf, hw⟩ | ⟨hf, hw⟩
  · by_cases h4 : s.avail.toNat = 4
    · rcases ht : typeScan (s.memRead s.base.toNat 4) with _ | ⟨i, b⟩
      · exact .inr (.inr (.inr ⟨hf, h4, rfl, by simp [hw, Config.typeBytes, h4, ht]⟩))
      · exact .inr (.inr (.inl ⟨i, b, hf, h4, rfl, by simp [hw, Config.typeBytes, h4, ht]⟩))
    · exact .inr (.inl ⟨hf, h4, by simp [hw, Config.typeBytes, h4]⟩)
  · exact .inl ⟨hf, by simp [hw]⟩

/-- CRC_BUF (41_crc.md R127). -/
theorem crcBufResult_cases (s : State) :
    (¬ s.windowFits ∧ crcBufResult s =
      ⟨false, .error { kind := .badWindow, info0 := s.base.toNat, info1 := s.avail.toNat }⟩) ∨
    (s.windowFits ∧ crcBufResult s = ⟨s.unwritten s.base.toNat s.avail.toNat,
      .ok ({}, { s with acc := crcFold s.acc (s.memRead s.base.toNat s.avail.toNat) })⟩) := by
  unfold crcBufResult
  rcases windowCheck_cases s with ⟨hf, hw⟩ | ⟨hf, hw⟩
  · exact .inr ⟨hf, by simp [hw]⟩
  · exact .inl ⟨hf, by simp [hw]⟩

/-- SliceCore (42_frame.md R143). -/
theorem sliceCore_cases (s : State) (b a : Nat) :
    (a < 12 ∧ sliceCore s b a =
      ⟨false, .error { kind := .notEnoughBytes, info0 := a, info1 := 12 }⟩) ∨
    (∃ n, n = be32 (s.memRead b 4) ∧ 12 ≤ a ∧ a < 12 + n ∧ sliceCore s b a =
      ⟨s.unwritten b 4, .error { kind := .lengthTooLarge, info0 := 12 + n, info1 := a }⟩) ∨
    (∃ n, n = be32 (s.memRead b 4) ∧ 12 + n ≤ a ∧ sliceCore s b a = ⟨s.unwritten b 4, .ok (n, 12 + n)⟩) := by
  unfold sliceCore
  by_cases h1 : a < 12
  · exact .inl ⟨h1, if_pos h1⟩
  · refine .inr ?_
    rw [if_neg (show ¬ a < Config.frameOverhead from h1)]
    by_cases h2 : a < 12 + be32 (s.memRead b 4)
    · refine .inl ⟨_, rfl, by omega, h2, ?_⟩
      simp only [if_pos (show spanOf (be32 (s.memRead b 4)) > a from h2)]
      rfl
    · refine .inr ⟨_, rfl, by omega, ?_⟩
      simp only [if_neg (show ¬ spanOf (be32 (s.memRead b 4)) > a from h2)]
      rfl

/-- DecodeCore's last two checks (42_frame.md R144). -/
theorem decodeBody_cases (s : State) (b n : Nat) :
    ∃ t d stored computed, t = s.memRead (b + 4) 4 ∧ d = s.memRead (b + 8) n ∧
      stored = BitVec.ofNat 32 (be32 (s.memRead (b + 8 + n) 4)) ∧ computed = checksum (t ++ d) ∧
      ((stored ≠ computed ∧ decodeBody s b n =
          .error { kind := .invalidCrc, info0 := stored.toNat, info1 := computed.toNat }) ∨
       (∃ i c, stored = computed ∧ typeScan t = some (i, c) ∧ decodeBody s b n =
          .error { kind := .invalidCharacter, info0 := i, info1 := c.toNat, wrapped := true }) ∨
       (stored = computed ∧ typeScan t = none ∧ decodeBody s b n = .ok ⟨n, 12 + n, t, stored, computed⟩)) := by
  refine ⟨_, _, _, _, rfl, rfl, rfl, rfl, ?_⟩
  unfold decodeBody
  by_cases h : BitVec.ofNat 32 (be32 (s.memRead (b + 8 + n) 4)) =
      checksum (s.memRead (b + 4) 4 ++ s.memRead (b + 8) n)
  · rcases ht : typeScan (s.memRead (b + 4) 4) with _ | ⟨i, c⟩
    · exact .inr (.inr ⟨h, rfl, by simp [h, ht, spanOf, Config.frameOverhead]⟩)
    · exact .inr (.inl ⟨i, c, h, rfl, by simp [h, ht]⟩)
  · exact .inl ⟨h, by simp [h]⟩

/-- DecodeCore (42_frame.md R144). -/
theorem decodeCore_cases (s : State) (b a : Nat) :
    (a < 12 ∧ decodeCore s b a =
      ⟨false, .error { kind := .notEnoughBytes, info0 := a, info1 := 12 }⟩) ∨
    (∃ n, n = be32 (s.memRead b 4) ∧ 12 ≤ a ∧ 2 ^ 31 ≤ n ∧ decodeCore s b a =
      ⟨s.unwritten b 4, .error { kind := .lengthTooLarge, info0 := 12 + n, info1 := a, sub := true }⟩) ∨
    (∃ n, n = be32 (s.memRead b 4) ∧ 12 ≤ a ∧ n < 2 ^ 31 ∧ a < 12 + n ∧ decodeCore s b a =
      ⟨s.unwritten b 4, .error { kind := .lengthTooLarge, info0 := 12 + n, info1 := a }⟩) ∨
    (∃ n, n = be32 (s.memRead b 4) ∧ n < 2 ^ 31 ∧ 12 + n < a ∧ decodeCore s b a =
      ⟨s.unwritten b 4, .error { kind := .remainingBytes, info0 := a - (12 + n), info1 := 0 }⟩) ∨
    (∃ n, n = be32 (s.memRead b 4) ∧ n < 2 ^ 31 ∧ a = 12 + n ∧ decodeCore s b a =
      ⟨s.unwritten b 4 || s.unwritten (b + 4) 4 || s.unwritten (b + 8) n || s.unwritten (b + 8 + n) 4,
        decodeBody s b n⟩) := by
  unfold decodeCore
  by_cases h1 : a < 12
  · exact .inl ⟨h1, if_pos h1⟩
  refine .inr ?_
  rw [if_neg (show ¬ a < Config.frameOverhead from h1)]
  by_cases h2 : 2 ^ 31 ≤ be32 (s.memRead b 4)
  · exact .inl ⟨_, rfl, by omega, h2, if_pos h2⟩
  refine .inr ?_
  simp only [if_neg (show ¬ be32 (s.memRead b 4) ≥ Config.lenLimit from h2)]
  by_cases h3 : a < 12 + be32 (s.memRead b 4)
  · refine .inl ⟨_, rfl, by omega, by omega, h3, ?_⟩
    rw [if_pos (show spanOf (be32 (s.memRead b 4)) > a from h3)]
    rfl
  refine .inr ?_
  rw [if_neg (show ¬ spanOf (be32 (s.memRead b 4)) > a from h3)]
  by_cases h4 : 12 + be32 (s.memRead b 4) < a
  · refine .inl ⟨_, rfl, by omega, h4, ?_⟩
    rw [if_pos (show spanOf (be32 (s.memRead b 4)) < a from h4)]
    rfl
  · refine .inr ⟨_, rfl, by omega, by omega, ?_⟩
    rw [if_neg (show ¬ spanOf (be32 (s.memRead b 4)) < a from h4)]

/-- SLICE (42_frame.md R145). -/
theorem sliceResult_cases (s : State) :
    (¬ s.windowFits ∧ sliceResult s =
      ⟨false, .error { kind := .badWindow, info0 := s.base.toNat, info1 := s.avail.toNat }⟩) ∨
    (∃ u e, s.windowFits ∧ sliceCore s s.base.toNat s.avail.toNat = ⟨u, .error e⟩ ∧
      sliceResult s = ⟨u, .error e⟩) ∨
    (∃ u n sp, s.windowFits ∧ sliceCore s s.base.toNat s.avail.toNat = ⟨u, .ok (n, sp)⟩ ∧
      sliceResult s = ⟨u, .ok ({}, { s with len := BitVec.ofNat 32 n, span := BitVec.ofNat 32 sp })⟩) := by
  unfold sliceResult
  rcases windowCheck_cases s with ⟨hf, hw⟩ | ⟨hf, hw⟩
  · rcases h : sliceCore s s.base.toNat s.avail.toNat with ⟨u, e | ⟨n, sp⟩⟩
    · exact .inr (.inl ⟨u, e, hf, rfl, by simp only [hw]⟩)
    · exact .inr (.inr ⟨u, n, sp, hf, rfl, by simp only [hw]⟩)
  · exact .inl ⟨hf, by simp [hw]⟩

/-- DECODE (42_frame.md R146). -/
theorem decodeResult_cases (s : State) :
    (¬ s.windowFits ∧ decodeResult s =
      ⟨false, .error { kind := .badWindow, info0 := s.base.toNat, info1 := s.avail.toNat }⟩) ∨
    (∃ u e, s.windowFits ∧ decodeCore s s.base.toNat s.avail.toNat = ⟨u, .error e⟩ ∧
      decodeResult s = ⟨u, .error e⟩) ∨
    (∃ u f, s.windowFits ∧ decodeCore s s.base.toNat s.avail.toNat = ⟨u, .ok f⟩ ∧
      decodeResult s = ⟨u, .ok ({ crcMatch := true, setTv := true }, s.withRecord s.base.toNat f)⟩) := by
  unfold decodeResult
  rcases windowCheck_cases s with ⟨hf, hw⟩ | ⟨hf, hw⟩
  · rcases h : decodeCore s s.base.toNat s.avail.toNat with ⟨u, e | f⟩
    · exact .inr (.inl ⟨u, e, hf, rfl, by simp only [hw]⟩)
    · exact .inr (.inr ⟨u, f, hf, rfl, by simp only [hw]⟩)
  · exact .inl ⟨hf, by simp [hw]⟩

/-- NEXT (42_frame.md R147). -/
theorem nextResult_cases (s : State) :
    (¬ s.windowFits ∧ nextResult s =
      ⟨false, .error { kind := .badWindow, info0 := s.base.toNat, info1 := s.avail.toNat }⟩) ∨
    (s.windowFits ∧ s.avail.toNat = 0 ∧ nextResult s = ⟨false, .ok ({ eos := true }, s)⟩) ∨
    (∃ u e, s.windowFits ∧ s.avail.toNat ≠ 0 ∧ sliceCore s s.base.toNat s.avail.toNat = ⟨u, .error e⟩ ∧
      nextResult s = ⟨u, .error { e with stage := 1 }⟩) ∨
    (∃ u n sp u' e, s.windowFits ∧ s.avail.toNat ≠ 0 ∧
      sliceCore s s.base.toNat s.avail.toNat = ⟨u, .ok (n, sp)⟩ ∧ decodeCore s s.base.toNat sp = ⟨u', .error e⟩ ∧
      nextResult s = ⟨u || u', .error { e with stage := 2 }⟩) ∨
    (∃ u n sp u' f, s.windowFits ∧ s.avail.toNat ≠ 0 ∧
      sliceCore s s.base.toNat s.avail.toNat = ⟨u, .ok (n, sp)⟩ ∧ decodeCore s s.base.toNat sp = ⟨u', .ok f⟩ ∧
      nextResult s = ⟨u || u', .ok ({ crcMatch := true, setTv := true },
        { s.withRecord s.base.toNat f with base := BitVec.ofNat 32 (s.base.toNat + f.span)
                                           avail := BitVec.ofNat 32 (s.avail.toNat - f.span) })⟩) := by
  unfold nextResult
  rcases windowCheck_cases s with ⟨hf, hw⟩ | ⟨hf, hw⟩
  · by_cases h0 : s.avail.toNat = 0
    · exact .inr (.inl ⟨hf, h0, by simp [hw, h0]⟩)
    · rcases h : sliceCore s s.base.toNat s.avail.toNat with ⟨u, e | ⟨n, sp⟩⟩
      · exact .inr (.inr (.inl ⟨u, e, hf, h0, rfl, by simp [hw, h0, h]⟩))
      · rcases h' : decodeCore s s.base.toNat sp with ⟨u', e | f⟩
        · exact .inr (.inr (.inr (.inl ⟨u, n, sp, u', e, hf, h0, rfl, h', by simp [hw, h0, h, h']⟩)))
        · exact .inr (.inr (.inr (.inr ⟨u, n, sp, u', f, hf, h0, rfl, h', by simp [hw, h0, h, h']⟩)))
  · exact .inl ⟨hf, by simp [hw]⟩

/-- CONSTRUCT (42_frame.md R148). -/
theorem constructResult_cases (s : State) :
    (¬ s.windowFits ∧ constructResult s =
      ⟨false, .error { kind := .badWindow, info0 := s.base.toNat, info1 := s.avail.toNat }⟩) ∨
    (∃ i c, s.windowFits ∧ typeScan (typeBytes s.typeCode) = some (i, c) ∧ constructResult s =
      ⟨false, .error { kind := .invalidCharacter, info0 := i, info1 := c.toNat, wrapped := true, clearTv := true }⟩) ∨
    (s.windowFits ∧ typeScan (typeBytes s.typeCode) = none ∧ 2 ^ 31 ≤ s.avail.toNat ∧ constructResult s =
      ⟨false, .error { kind := .lengthTooLarge, info0 := 12 + s.avail.toNat, info1 := s.avail.toNat, sub := true }⟩) ∨
    (s.windowFits ∧ typeScan (typeBytes s.typeCode) = none ∧ s.avail.toNat < 2 ^ 31 ∧ constructResult s =
      ⟨s.unwritten s.base.toNat s.avail.toNat, .ok ({ setTv := true },
        { s with len := BitVec.ofNat 32 s.avail.toNat, span := BitVec.ofNat 32 (12 + s.avail.toNat)
                 crcCalc := checksum (typeBytes s.typeCode ++ s.memRead s.base.toNat s.avail.toNat)
                 dataOff := BitVec.ofNat 32 s.base.toNat })⟩) := by
  unfold constructResult
  rcases windowCheck_cases s with ⟨hf, hw⟩ | ⟨hf, hw⟩
  · rcases ht : typeScan (typeBytes s.typeCode) with _ | ⟨i, c⟩
    · by_cases h : s.avail.toNat ≥ 2 ^ 31
      · refine .inr (.inr (.inl ⟨hf, rfl, h, ?_⟩))
        simp only [hw, ht, if_pos (show s.avail.toNat ≥ Config.lenLimit from h)]
        rfl
      · refine .inr (.inr (.inr ⟨hf, rfl, by omega, ?_⟩))
        simp only [hw, ht, if_neg (show ¬ s.avail.toNat ≥ Config.lenLimit from h)]
        rfl
    · exact .inr (.inl ⟨i, c, hf, rfl, by simp [hw, ht]⟩)
  · exact .inl ⟨hf, by simp [hw]⟩

/-- The length field the host wrote (42_frame.md R140). -/
theorem lengthField_of_holds {s : State} {b n : Nat} (hn : n < 2 ^ 32) (h : s.holds b (bytesBe32 n)) :
    be32 (s.memRead b 4) = n ∧ s.unwritten b 4 = false := by
  have h1 := State.memRead_of_holds h
  have h2 := State.unwritten_of_holds h
  rw [bytesBe32_length] at h1 h2
  exact ⟨by rw [h1, be32_bytesBe32 hn], h2⟩

/-- The fields of a frame image the host wrote (42_frame.md R140). -/
theorem frameFields_of_holds {s : State} {b : Nat} {t d : List Byte} {c : Word} (ht : t.length = 4)
    (hd : d.length < 2 ^ 32) (h : s.holds b (frameImage d.length t d c)) :
    be32 (s.memRead b 4) = d.length ∧ s.unwritten b 4 = false ∧
    s.memRead (b + 4) 4 = t ∧ s.unwritten (b + 4) 4 = false ∧
    s.memRead (b + 8) d.length = d ∧ s.unwritten (b + 8) d.length = false ∧
    be32 (s.memRead (b + 8 + d.length) 4) = c.toNat ∧ s.unwritten (b + 8 + d.length) 4 = false := by
  unfold frameImage at h
  rw [State.holds_append, State.holds_append, State.holds_append] at h
  obtain ⟨⟨⟨h1, h2⟩, h3⟩, h4⟩ := h
  simp only [bytesBe32_length, List.length_append, ht] at h2 h3 h4
  rw [show b + (4 + 4) = b + 8 by omega] at h3
  rw [show b + (4 + 4 + d.length) = b + 8 + d.length by omega] at h4
  obtain ⟨a1, a2⟩ := lengthField_of_holds hd h1
  obtain ⟨a3, a4⟩ := lengthField_of_holds c.isLt h4
  have b1 := State.memRead_of_holds h2
  have b2 := State.unwritten_of_holds h2
  rw [ht] at b1 b2
  exact ⟨a1, a2, b1, b2, State.memRead_of_holds h3, State.unwritten_of_holds h3, a3, a4⟩

/-- A frame image is 12 + N bytes (42_frame.md R149). -/
theorem frameImage_length {t d : List Byte} (c : Word) (ht : t.length = 4) :
    (frameImage d.length t d c).length = 12 + d.length := by
  simp [frameImage, ht]
  omega

/-- An unwritten read is one of a byte whose mark is 0 (20_memory.md R62). -/
theorem unwritten_iff {s : State} {k n : Nat} : s.unwritten k n = true ↔ s.someUnwritten k n := by
  simp [State.unwritten, State.someUnwritten]

/-- A range inside a written range is written. -/
theorem unwritten_sub {s : State} {b n k m : Nat} (h : s.unwritten b n = false) (h1 : b ≤ k)
    (h2 : k + m ≤ b + n) : s.unwritten k m = false := by
  simp only [State.unwritten, List.any_eq_false, List.mem_range'_1] at *
  intro j hj
  exact h j (by omega)

/-- A written window is one with no unwritten byte. -/
theorem windowWritten_iff {s : State} :
    s.windowWritten ↔ s.unwritten s.base.toNat s.avail.toNat = false := by
  simp only [State.unwritten, List.any_eq_false, State.windowWritten]
  constructor <;> intro h j hj <;> have := h j hj <;> revert this <;> cases s.ibuf.read j <;> simp

end Sys2Proof.Machine
end

