-- ==== Sys2Proof/Laws/Frame.lean ====
section
/-! SUPPORT. What SliceCore and DecodeCore answer (42_frame.md R143, R144): the shape of their errors and values, their
reads inside a written window, and their answers over a frame the host wrote. -/

namespace Sys2Proof.Machine

/-- The errors of SliceCore (42_frame.md R143). -/
theorem sliceCore_error {s : State} {b a : Nat} {u : Bool} {e : CmdError} (h : sliceCore s b a = ⟨u, .error e⟩) :
    e.clearTv = false ∧ e.stage = 0 ∧ e.wrapped = false ∧ e.sub = false ∧
    (e.kind = .notEnoughBytes ∨ e.kind = .lengthTooLarge) ∧ e.info0 < 2 ^ 32 + 12 ∧
    (e.kind = .notEnoughBytes → e.info0 < 12) ∧ (e.kind = .lengthTooLarge → a < e.info0) := by
  rcases sliceCore_cases s b a with ⟨h1, e1⟩ | ⟨n, hn, _, _, e1⟩ | ⟨n, hn, _, e1⟩ <;> rw [h] at e1 <;> simp at e1
  · obtain ⟨rfl, rfl⟩ := e1
    simp
    omega
  · obtain ⟨rfl, rfl⟩ := e1
    have := be32_lt (s := s.memRead b 4) (by simp)
    simp
    omega

/-- The value of SliceCore (42_frame.md R143). -/
theorem sliceCore_ok {s : State} {b a n sp : Nat} {u : Bool} (h : sliceCore s b a = ⟨u, .ok (n, sp)⟩) :
    n = be32 (s.memRead b 4) ∧ sp = 12 + n ∧ sp ≤ a := by
  rcases sliceCore_cases s b a with ⟨_, e1⟩ | ⟨m, hm, _, hlt, e1⟩ | ⟨m, hm, hle, e1⟩ <;> rw [h] at e1 <;> simp at e1
  omega

/-- The errors of DecodeCore (42_frame.md R144). -/
theorem decodeCore_error {s : State} {b a : Nat} {u : Bool} {e : CmdError} (h : decodeCore s b a = ⟨u, .error e⟩) :
    e.clearTv = false ∧ e.stage = 0 ∧ (e.wrapped = true ↔ e.kind = .invalidCharacter) ∧
    (e.sub = true → e.kind = .lengthTooLarge) ∧
    (e.kind ≠ .badWindow ∧ e.kind ≠ .illegalCmd ∧ e.kind ≠ .invalidLength) ∧
    (e.kind ≠ .lengthTooLarge → a < 2 ^ 32 → e.info0 < 2 ^ 32) ∧
    (e.kind = .lengthTooLarge → e.info0 < 2 ^ 32 + 12 ∧ (e.sub = true ↔ 12 + 2 ^ 31 ≤ e.info0) ∧
      (e.sub = false → a < e.info0)) := by
  have hlt := be32_lt (s := s.memRead b 4) (by simp)
  rcases decodeCore_cases s b a with ⟨h1, e1⟩ | ⟨n, hn, h1, h2, e1⟩ | ⟨n, hn, h1, h2, h3, e1⟩ | ⟨n, hn, h1, h2, e1⟩ |
    ⟨n, hn, h1, h2, e1⟩ <;> rw [h] at e1 <;> simp at e1
  · obtain ⟨rfl, rfl⟩ := e1
    simp
  · obtain ⟨rfl, rfl⟩ := e1
    simp
    omega
  · obtain ⟨rfl, rfl⟩ := e1
    simp
    omega
  · obtain ⟨rfl, rfl⟩ := e1
    simp
    omega
  · obtain ⟨rfl, e1⟩ := e1
    rcases decodeBody_cases s b n with ⟨t, d, st, co, ht, hd, hst, hco, ⟨_, e2⟩ | ⟨i, c, _, hsc, e2⟩ | ⟨_, _, e2⟩⟩ <;>
      rw [← e1] at e2 <;> simp at e2
    · subst e2
      simp
      omega
    · subst e2
      have := typeScan_lt hsc
      subst ht
      simp at this ⊢
      omega

/-- DecodeCore over exactly the span its length field declares reports no missing and no trailing bytes, and
LENGTH_TOO_LARGE only for the limit (42_frame.md R147). -/
theorem decodeCore_span_error {s : State} {b : Nat} {u : Bool} {e : CmdError}
    (h : decodeCore s b (12 + be32 (s.memRead b 4)) = ⟨u, .error e⟩) :
    e.kind ≠ .notEnoughBytes ∧ e.kind ≠ .remainingBytes ∧ (e.kind = .lengthTooLarge → e.sub = true) := by
  rcases decodeCore_cases s b (12 + be32 (s.memRead b 4)) with ⟨h1, e1⟩ | ⟨n, hn, h1, h2, e1⟩ |
    ⟨n, hn, h1, h2, h3, e1⟩ | ⟨n, hn, h1, h2, e1⟩ | ⟨n, hn, h1, h2, e1⟩ <;> rw [h] at e1 <;> simp at e1
  · omega
  · simp [e1]
  · omega
  · omega
  · obtain ⟨-, e1⟩ := e1
    rcases decodeBody_cases s b n with ⟨t, d, st, co, ht, hd, hst, hco, ⟨_, e2⟩ | ⟨i, c, _, hsc, e2⟩ | ⟨_, _, e2⟩⟩ <;>
      rw [← e1] at e2 <;> simp at e2 <;> simp [e2]

/-- The value of DecodeCore (42_frame.md R144). -/
theorem decodeCore_ok {s : State} {b a : Nat} {u : Bool} {f : FrameRecord} (h : decodeCore s b a = ⟨u, .ok f⟩) :
    f.stored = f.computed ∧ f.span = a ∧ f.span = 12 + f.len ∧ f.len < 2 ^ 31 ∧ f.type.length = 4 ∧
    (∀ x ∈ f.type, Letter x) ∧ f.len = be32 (s.memRead b 4) ∧ f.type = s.memRead (b + 4) 4 ∧
    f.computed = checksum (f.type ++ s.memRead (b + 8) f.len) ∧
    f.stored = BitVec.ofNat 32 (be32 (s.memRead (b + 8 + f.len) 4)) := by
  rcases decodeCore_cases s b a with ⟨h1, e1⟩ | ⟨n, hn, h1, h2, e1⟩ | ⟨n, hn, h1, h2, h3, e1⟩ | ⟨n, hn, h1, h2, e1⟩ |
    ⟨n, hn, h1, h2, e1⟩ <;> rw [h] at e1 <;> simp at e1
  obtain ⟨rfl, e1⟩ := e1
  rcases decodeBody_cases s b n with ⟨t, d, st, co, ht, hd, hst, hco, ⟨_, e2⟩ | ⟨i, c, _, hsc, e2⟩ | ⟨h5, h6, e2⟩⟩ <;>
    rw [← e1] at e2 <;> simp at e2
  subst e2
  exact ⟨h5, h2.symm, rfl, h1, by simp [ht], (typeScan_eq_none_iff _).1 h6, hn, ht, by rw [hco, hd], hst⟩

/-- What DecodeCore accepts is a frame image (42_frame.md R149, R152). -/
theorem decodeCore_ok_image {s : State} {b a : Nat} {u : Bool} {f : FrameRecord} (h : decodeCore s b a = ⟨u, .ok f⟩) :
    s.memRead b a = frameImage f.len f.type (s.memRead (b + 8) f.len) f.computed := by
  obtain ⟨h1, h2, h3, h4, h5, h6, h7, h8, h9, h10⟩ := decodeCore_ok h
  rw [show a = 4 + 4 + f.len + 4 by omega, State.memRead_add, State.memRead_add, State.memRead_add]
  unfold frameImage
  have e1 : bytesBe32 f.len = s.memRead b 4 := by rw [h7, bytesBe32_be32 (by simp)]
  rw [e1, ← h1, h10, show b + (4 + 4) = b + 8 by omega, show b + (4 + 4 + f.len) = b + 8 + f.len by omega, ← h8,
    BitVec.toNat_ofNat, Nat.mod_eq_of_lt (be32_lt (by simp)), bytesBe32_be32 (by simp)]

/-- SliceCore reads inside its window only. -/
theorem sliceCore_written {s : State} {b a : Nat} (h : s.unwritten b a = false) :
    (sliceCore s b a).unwritten = false := by
  rcases sliceCore_cases s b a with ⟨h1, e⟩ | ⟨n, hn, h1, h2, e⟩ | ⟨n, hn, h1, e⟩ <;> rw [e]
  · exact unwritten_sub h (by omega) (by omega)
  · exact unwritten_sub h (by omega) (by omega)

/-- DecodeCore reads inside its window only. -/
theorem decodeCore_written {s : State} {b a : Nat} (h : s.unwritten b a = false) :
    (decodeCore s b a).unwritten = false := by
  rcases decodeCore_cases s b a with ⟨h1, e⟩ | ⟨n, hn, h1, h2, e⟩ | ⟨n, hn, h1, h2, h3, e⟩ | ⟨n, hn, h1, h2, e⟩ |
    ⟨n, hn, h1, h2, e⟩ <;> rw [e]
  · exact unwritten_sub h (by omega) (by omega)
  · exact unwritten_sub h (by omega) (by omega)
  · exact unwritten_sub h (by omega) (by omega)
  · simp [unwritten_sub h (Nat.le_refl b) (show b + 4 ≤ b + a by omega),
      unwritten_sub h (show b ≤ b + 4 by omega) (show b + 4 + 4 ≤ b + a by omega),
      unwritten_sub h (show b ≤ b + 8 by omega) (show b + 8 + n ≤ b + a by omega),
      unwritten_sub h (show b ≤ b + 8 + n by omega) (show b + 8 + n + 4 ≤ b + a by omega)]

/-- SliceCore over a written length field whose span fits. -/
theorem sliceCore_of_holds {s : State} {b n a : Nat} (hn : n < 2 ^ 32) (hh : s.holds b (bytesBe32 n))
    (hl : 12 + n ≤ a) : sliceCore s b a = ⟨false, .ok (n, 12 + n)⟩ := by
  obtain ⟨h1, h2⟩ := lengthField_of_holds hn hh
  have h9 : ¬ a < 12 := by omega
  have h10 : ¬ a < 12 + n := by omega
  simp [sliceCore, Config.frameOverhead, spanOf, h1, h2, h9, h10]

/-- DecodeCore over a written length field at or above the limit. -/
theorem decodeCore_of_limit {s : State} {b n a : Nat} (ha : 12 ≤ a) (hn : n < 2 ^ 32) (hh : s.holds b (bytesBe32 n))
    (hl : 2 ^ 31 ≤ n) : decodeCore s b a =
      ⟨false, .error { kind := .lengthTooLarge, info0 := 12 + n, info1 := a, sub := true }⟩ := by
  obtain ⟨h1, h2⟩ := lengthField_of_holds hn hh
  have h9 : ¬ a < 12 := by omega
  have h10 : 2147483648 ≤ n := by omega
  simp [decodeCore, Config.frameOverhead, Config.lenLimit, spanOf, h1, h2, h9, h10]

/-- DecodeCore over a written frame whose trailer is not its checksum. -/
theorem decodeCore_of_badCrc {s : State} {b : Nat} {t d : List Byte} {c : Word} (ht : t.length = 4)
    (hd : d.length < 2 ^ 31) (h : s.holds b (frameImage d.length t d c)) (hc : c ≠ checksum (t ++ d)) :
    decodeCore s b (12 + d.length) =
      ⟨false, .error { kind := .invalidCrc, info0 := c.toNat, info1 := (checksum (t ++ d)).toNat }⟩ := by
  obtain ⟨h1, h2, h3, h4, h5, h6, h7, h8⟩ := frameFields_of_holds ht (by omega) h
  simp [decodeCore, decodeBody, Config.frameOverhead, Config.lenLimit, spanOf, h1, h2, h3, h4, h5, h6, h7, h8, hc]
  omega

/-- DecodeCore over a written frame whose type has a byte that is not a letter. -/
theorem decodeCore_of_badType {s : State} {b : Nat} {p r d : List Byte} {x : Byte} (ht : (p ++ x :: r).length = 4)
    (hd : d.length < 2 ^ 31)
    (h : s.holds b (frameImage d.length (p ++ x :: r) d (checksum (p ++ x :: r ++ d))))
    (hp : ∀ b ∈ p, Letter b) (hx : ¬ Letter x) : decodeCore s b (12 + d.length) =
      ⟨false, .error { kind := .invalidCharacter, info0 := p.length, info1 := x.toNat, wrapped := true }⟩ := by
  obtain ⟨h1, h2, h3, h4, h5, h6, h7, h8⟩ := frameFields_of_holds ht (by omega) h
  have h9 : ¬ 2147483648 ≤ d.length := by omega
  simp only [decodeCore, decodeBody, Config.frameOverhead, Config.lenLimit, spanOf, h1, h2, h3, h4, h5, h6, h7, h8,
    typeScan_append hp hx]
  simp [h9]

/-- DecodeCore over the written image of a valid record. -/
theorem decodeCore_of_valid {s : State} {b : Nat} {t d : List Byte} (hv : ValidRecord t d)
    (h : s.holds b (frameImage d.length t d (checksum (t ++ d)))) : decodeCore s b (12 + d.length) =
      ⟨false, .ok ⟨d.length, 12 + d.length, t, checksum (t ++ d), checksum (t ++ d)⟩⟩ := by
  obtain ⟨ht, hd⟩ := hv
  obtain ⟨h1, h2, h3, h4, h5, h6, h7, h8⟩ := frameFields_of_holds ht.1 (by omega) h
  have h9 : ¬ 2147483648 ≤ d.length := by omega
  simp only [decodeCore, decodeBody, Config.frameOverhead, Config.lenLimit, spanOf, h1, h2, h3, h4, h5, h6, h7, h8,
    (typeScan_eq_none_iff t).2 ht.2]
  simp [h9]

/-- What SUB and STAGE say of any command's error (60_exceptions.md R201, 10_state.md R48). -/
theorem cmdResult_error {i : Instr} {s : State} {e : CmdError} (h : (cmdResult i s).result = .error e) :
    (e.sub = true → e.kind = .lengthTooLarge ∧ i ≠ .slice ∧ 12 + 2 ^ 31 ≤ e.info0) ∧
    (e.sub = false → e.kind = .lengthTooLarge →
      i ≠ .construct ∧ s.avail.toNat < e.info0 ∧ (i = .decode → e.info0 < 12 + 2 ^ 31)) ∧
    (e.kind = .lengthTooLarge → e.info0 < 2 ^ 32 + 12) ∧
    (e.stage = 1 ↔ i = .next ∧ (e.kind = .notEnoughBytes ∨ (e.kind = .lengthTooLarge ∧ e.sub = false))) ∧
    (e.stage = 2 ↔ i = .next ∧
      (e.kind = .invalidCharacter ∨ e.kind = .invalidCrc ∨ (e.kind = .lengthTooLarge ∧ e.sub = true))) ∧
    (e.stage ≠ 0 ↔ i = .next ∧ e.kind ≠ .badWindow) := by
  have ha := s.avail.isLt
  cases i <;> simp only [cmdResult] at h
  case nop | clear | crcInit | crcByte => simp at h
  case typeCheck =>
    rcases typeCheckResult_cases s with ⟨_, _, _, e1⟩ | ⟨_, e1⟩ <;> rw [e1] at h <;> simp at h
    simp [← h]
  case typeParse =>
    rcases typeParseResult_cases s with ⟨_, e1⟩ | ⟨_, _, e1⟩ | ⟨_, _, _, _, _, e1⟩ | ⟨_, _, _, e1⟩ <;>
      rw [e1] at h <;> simp at h <;> simp [← h]
  case crcBuf =>
    rcases crcBufResult_cases s with ⟨_, e1⟩ | ⟨_, e1⟩ <;> rw [e1] at h <;> simp at h
    simp [← h]
  case slice =>
    rcases sliceResult_cases s with ⟨_, e1⟩ | ⟨u, e', _, hc, e1⟩ | ⟨_, _, _, _, _, e1⟩ <;> rw [e1] at h <;> simp at h
    · simp [← h]
    · subst h
      obtain ⟨_, h2, _, h4, _, h6, _, h8⟩ := sliceCore_error hc
      refine ⟨by simp [h4], fun _ hk => ⟨by simp, h8 hk, by simp⟩, fun _ => by omega, ?_⟩
      simp [h2]
  case decode =>
    rcases decodeResult_cases s with ⟨_, e1⟩ | ⟨u, e', _, hc, e1⟩ | ⟨_, _, _, _, e1⟩ <;> rw [e1] at h <;> simp at h
    · simp [← h]
    · subst h
      obtain ⟨_, h2, _, h4, _, _, h7⟩ := decodeCore_error hc
      refine ⟨fun hs => ⟨h4 hs, by simp, (h7 (h4 hs)).2.1.1 hs⟩, fun hs hk => ⟨by simp, (h7 hk).2.2 hs, fun _ => ?_⟩,
        fun hk => (h7 hk).1, ?_⟩
      · have := (h7 hk).2.1
        rw [hs] at this
        simpa using this
      · simp [h2]
  case next =>
    rcases nextResult_cases s with ⟨_, e1⟩ | ⟨_, _, e1⟩ | ⟨u, e', _, _, hc, e1⟩ |
      ⟨u, n, sp, u', e', _, _, hc, hd, e1⟩ | ⟨_, _, _, _, _, _, _, _, _, e1⟩ <;> rw [e1] at h <;> simp at h
    · simp [← h]
    · subst h
      obtain ⟨_, _, _, h4, h5, h6, _, h8⟩ := sliceCore_error hc
      refine ⟨by simp [h4], fun _ hk => ⟨by simp, h8 hk, by simp⟩, fun _ => by simpa using by omega, ?_⟩
      rcases h5 with hk | hk <;> simp [h4, hk]
    · subst h
      obtain ⟨rfl, rfl, hle⟩ := sliceCore_ok hc
      obtain ⟨_, _, _, h4, h5, _, h7⟩ := decodeCore_error hd
      obtain ⟨g1, g2, g3⟩ := decodeCore_span_error hd
      refine ⟨fun hs => ⟨h4 hs, by simp, (h7 (h4 hs)).2.1.1 hs⟩, fun hs hk => ?_, fun hk => (h7 hk).1, ?_⟩
      · simp [g3 hk] at hs
      · rcases hk : e'.kind <;> simp [hk] at g1 g2 g3 h5 ⊢
        simp [g3]
  case construct =>
    rcases constructResult_cases s with ⟨_, e1⟩ | ⟨_, _, _, _, e1⟩ | ⟨_, _, _, e1⟩ | ⟨_, _, _, e1⟩ <;>
      rw [e1] at h <;> simp at h
    · simp [← h]
    · simp [← h]
    · subst h
      simp
      omega

end Sys2Proof.Machine
end

