-- ==== Sys2Proof/Laws/PerInstr.lean ====
section
/-! SUPPORT. Per-instruction family ReservedBitsZero: a command's word has RSVD = 0 (30_encoding.md R80, R82). -/

namespace Sys2Proof.Laws.ReservedBitsZero

/-- Bits 31:8 of the command's word are 0. -/
def Statement (i : Instr) : Prop := rsvdField (encode i) = 0

theorem nop : Statement .nop := by unfold Statement; decide
theorem clear : Statement .clear := by unfold Statement; decide
theorem typeCheck : Statement .typeCheck := by unfold Statement; decide
theorem typeParse : Statement .typeParse := by unfold Statement; decide
theorem crcInit : Statement .crcInit := by unfold Statement; decide
theorem crcByte : Statement .crcByte := by unfold Statement; decide
theorem crcBuf : Statement .crcBuf := by unfold Statement; decide
theorem slice : Statement .slice := by unfold Statement; decide
theorem decode : Statement .decode := by unfold Statement; decide
theorem next : Statement .next := by unfold Statement; decide
theorem construct : Statement .construct := by unfold Statement; decide

end Sys2Proof.Laws.ReservedBitsZero
end

