-- ==== Sys2Proof/Laws/Program.lean ====
section
/-! SUPPORT. What a program's encoding is, line by line (30_encoding.md R87 to R89). -/

namespace Sys2Proof.Machine

/-- The encoding of no lines (R89). -/
@[simp] theorem programEncoding_nil (s : State) : programEncoding [] s = [] := rfl

/-- The encoding's first transaction is its first line's, and the rest is the encoding from the state after it (R89). -/
theorem programEncoding_cons {a : HostAction} {rest : List HostAction} {s t : State}
    (h : step { s with pending := a :: rest } = .next t) :
    programEncoding (a :: rest) s = (transactionOf (observedSince s t) a).toList ++ programEncoding rest t := by
  have h' : stepPending { s with pending := a :: rest } = .next t := h
  simp only [programEncoding, h']

/-- An access carries the low bits of its width (log 14). -/
theorem accessData_toNat (bits : Nat) (d : BitVec 64) : (accessData bits d).toNat = d.toNat % 2 ^ bits := by
  have h1 := d.isLt
  have h2 := Nat.mod_le d.toNat (2 ^ bits)
  simp only [accessData, BitVec.toNat_ofNat]
  exact Nat.mod_eq_of_lt (by omega)

/-- One more observation is the value observed (log 3). -/
theorem observedSince_cons {s t : State} {g : Target} {v : Word} (h : t.observed = ⟨g, v⟩ :: s.observed) :
    observedSince s t = some v := by
  simp [observedSince, h]

/-- No more observations, no value (log 6). -/
theorem observedSince_same {s t : State} (h : t.observed = s.observed) : observedSince s t = none := by
  simp [observedSince, h]

/-- A step that writes an IBUF byte past its access (20_memory.md R61). -/
theorem step_lineWb {k : Nat} {b : Byte} {rest : List HostAction} {s : State} (hk : k < s.params.ibufSize.toNat) :
    step { s with pending := lineWb k b :: rest } = .next { s with pending := rest, ibuf := s.ibuf.write k b } := by
  rw [step_cons rfl]
  simp only [lineWb, performAction, ibufAccessOk]
  simp [hk]

/-- `load k, bs` encodes as its byte writes, in order (30_encoding.md R88, R89). -/
theorem programEncoding_loadLines (bs : List Byte) : ∀ (k : Nat) (s : State), k + bs.length ≤ s.params.ibufSize.toNat →
    programEncoding (loadLines k bs) s =
      bs.zipIdx.map (fun x => ⟨.write, .ibuf (k + x.2), some (x.1.setWidth 64)⟩) := by
  induction bs with
  | nil => simp [loadLines]
  | cons b t ih =>
    intro k s hk
    simp only [List.length_cons] at hk
    have hb : accessData 8 (b.setWidth 64) = b.setWidth 64 := by
      apply BitVec.eq_of_toNat_eq
      rw [accessData_toNat]
      have := b.isLt
      simp
      omega
    rw [loadLines, programEncoding_cons (step_lineWb (by omega)), ih (k + 1) _ (by simpa using by omega)]
    simp only [lineWb, transactionOf, hb, Option.toList, List.zipIdx_cons, List.map_cons, List.cons_append, List.nil_append]
    congr 1
    rw [← List.map_snd_add_zipIdx_eq_zipIdx (n := 1) (k := 0)]
    simp [List.map_map, Function.comp_def, Nat.add_comm, Nat.add_left_comm]

end Sys2Proof.Machine
end

