-- ==== Sys2Proof/Tests/Slice0.lean ====
section
/-! SUPPORT. The model's own tests: one step each, on the vectors of 95_test_vectors.md (ids in the comments), the
spec's encodings written out bit by bit, ill-formed terms for each check; and, for every obligation with hypotheses,
a state and operands that meet them (theorems witness_...). -/

namespace Sys2Proof.Tests

open Sys2Proof Sys2Proof.Machine

/-- The next state of a command. -/
def after (i : Instr) (s : State) : State :=
  match exec i s with
  | .next t => t
  | .fault _ => s
  | .refused _ => s

/-- The next state of a step. -/
def stepped (s : State) : State :=
  match step s with
  | .next t => t
  | .fault _ => s
  | .refused _ => s

/-- Reset, then `load k, bs` and `window base, avail` (30_encoding.md R88). -/
def holding (base avail : Word) (k : Nat) (bs : List Byte) : State :=
  { State.reset with base := base, avail := avail, ibuf := (List.range' k bs.length).zip bs }

/-- Reset, then `wr TYPE, v` and `window base, avail`. -/
def typed (v base avail : Word) : State := { State.reset with typeCode := v, base := base, avail := avail }

/-- Reset with one host action pending. -/
def doing (a : HostAction) : State := { State.reset with pending := [a] }

/-- The reads of STATUS, ERR, ERR_INFO0_LO and ERR_INFO1. -/
def report (s : State) : List Word :=
  [s.readReg .status, s.readReg .err, s.readReg .errInfo0Lo, s.readReg .errInfo1]

/-- MSG and the frame images of 95_test_vectors.md section 0. -/
def msg : List Byte :=
  [0x54, 0x68, 0x69, 0x73, 0x20, 0x69, 0x73, 0x20, 0x77, 0x68, 0x65, 0x72, 0x65, 0x20] ++
  [0x79, 0x6F, 0x75, 0x72, 0x20, 0x73, 0x65, 0x63, 0x72, 0x65, 0x74, 0x20, 0x6D, 0x65] ++
  [0x73, 0x73, 0x61, 0x67, 0x65, 0x20, 0x77, 0x69, 0x6C, 0x6C, 0x20, 0x62, 0x65, 0x21]

def rust : List Byte := [0x52, 0x75, 0x53, 0x74]

def frameF1 : List Byte := [0x00, 0x00, 0x00, 0x2A] ++ rust ++ msg ++ [0xAB, 0xD1, 0xD8, 0x4E]

def hello : List Byte := [0x68, 0x65, 0x6C, 0x6C, 0x6F]

def frameH : List Byte := [0x00, 0x00, 0x00, 0x05, 0x74, 0x65, 0x53, 0x74] ++ hello ++ [0xA1, 0xF1, 0xC5, 0xCE]

def iend0 : List Byte := [0x00, 0x00, 0x00, 0x00, 0x49, 0x45, 0x4E, 0x44, 0xAE, 0x42, 0x60, 0x82]

/-! ## Well-formedness: one ill-formed term for each check (00_scope.md R6, 20_memory.md R66) -/

theorem test_params_of_the_vectors : Params.vectors.wellFormed = true := by decide

theorem test_ibufSize_11_is_refused :
    (⟨11, 0, 0x100, 1, .synchronous⟩ : Params).ibufSizeOk = false ∧
    (⟨11, 0, 0x100, 1, .synchronous⟩ : Params).wellFormed = false := by decide

theorem test_regBase_1_is_refused :
    (⟨4096, 1, 0x200, 1, .synchronous⟩ : Params).regBaseOk = false ∧
    (⟨4096, 1, 0x200, 1, .synchronous⟩ : Params).wellFormed = false := by decide

theorem test_latency_0_is_refused :
    (⟨4096, 0, 0x100, 0, .synchronous⟩ : Params).latencyOk = false ∧
    (⟨4096, 0, 0x100, 0, .synchronous⟩ : Params).wellFormed = false := by decide

theorem test_commands_are_wellFormed :
    [Instr.nop, .clear, .typeCheck, .typeParse, .crcInit, .crcByte, .crcBuf, .slice, .decode, .next,
      .construct].all Instr.wellFormed = true := by decide

theorem test_accesses_refused :
    regAccessOk 0x10 16 = false ∧ regAccessOk 0x11 32 = false ∧ regAccessOk 0x100 32 = false ∧
    ibufAccessOk Params.vectors 0 16 = false ∧ ibufAccessOk Params.vectors 4096 8 = false ∧
    regAccessOk 0xFC 32 = true ∧ ibufAccessOk Params.vectors 4095 8 = true := by decide

/-! ## Decoding: each command's word by bits, RSVD then OPC (30_encoding.md R80, R82) -/

theorem test_decode_control :
    decode 0b00000000_00000000_00000000_00000000 = .ok .nop ∧
    decode 0b00000000_00000000_00000000_00000001 = .ok .clear := by decide

theorem test_decode_type :
    decode 0b00000000_00000000_00000000_00010000 = .ok .typeCheck ∧
    decode 0b00000000_00000000_00000000_00010001 = .ok .typeParse := by decide

theorem test_decode_crc :
    decode 0b00000000_00000000_00000000_00100000 = .ok .crcInit ∧
    decode 0b00000000_00000000_00000000_00100001 = .ok .crcByte ∧
    decode 0b00000000_00000000_00000000_00100010 = .ok .crcBuf := by decide

theorem test_decode_frame :
    decode 0b00000000_00000000_00000000_00110000 = .ok .slice ∧
    decode 0b00000000_00000000_00000000_00110001 = .ok .decode ∧
    decode 0b00000000_00000000_00000000_00110010 = .ok .next ∧
    decode 0b00000000_00000000_00000000_00110011 = .ok .construct := by decide

/-- The two kinds of illegal word (30_encoding.md R85; the words of N2, N5, N6, N7). -/
theorem test_decode_illegal :
    decode 0x000000FF = .error .unmappedOpc ∧ decode 0x00000002 = .error .unmappedOpc ∧
    decode 0x00000131 = .error .reservedBits ∧ decode 0x80000020 = .error .reservedBits := by decide

theorem test_decodeTableWord :
    decodeTableWord 32 0x31 = some .decode ∧ decodeTableWord 32 0x34 = none ∧
    decodeTableWord 8 0x33 = some .construct ∧ decodeTableWord 40 0x100000031 = none := by decide

/-! ## Operands and the CRC function -/

/-- be32 and bytes_be32 (00_scope.md R10): "RuSt" is 0x52755374. -/
theorem test_be32 : be32 rust = 0x52755374 ∧ bytesBe32 0x52755374 = rust ∧ typeBytes 0x52755374 = rust := by decide

/-- The bytes beside the letters (T7 to T11): '@' 'A' 'Z' '[' '`' 'a' 'z' and the next one. -/
theorem test_isLetter : [0x40, 0x41, 0x5A, 0x5B, 0x60, 0x61, 0x7A, 0x7B, 0x80].map isLetter =
    [false, true, true, false, false, true, true, false, false] := by decide

/-- 41_crc.md R128, rows 0x00 to 0x38. -/
theorem test_crcTable_0 : (List.range' 0 64).map (fun n => crcTable (BitVec.ofNat 8 n)) =
    [0x00000000, 0x77073096, 0xEE0E612C, 0x990951BA, 0x076DC419, 0x706AF48F, 0xE963A535, 0x9E6495A3] ++
    [0x0EDB8832, 0x79DCB8A4, 0xE0D5E91E, 0x97D2D988, 0x09B64C2B, 0x7EB17CBD, 0xE7B82D07, 0x90BF1D91] ++
    [0x1DB71064, 0x6AB020F2, 0xF3B97148, 0x84BE41DE, 0x1ADAD47D, 0x6DDDE4EB, 0xF4D4B551, 0x83D385C7] ++
    [0x136C9856, 0x646BA8C0, 0xFD62F97A, 0x8A65C9EC, 0x14015C4F, 0x63066CD9, 0xFA0F3D63, 0x8D080DF5] ++
    [0x3B6E20C8, 0x4C69105E, 0xD56041E4, 0xA2677172, 0x3C03E4D1, 0x4B04D447, 0xD20D85FD, 0xA50AB56B] ++
    [0x35B5A8FA, 0x42B2986C, 0xDBBBC9D6, 0xACBCF940, 0x32D86CE3, 0x45DF5C75, 0xDCD60DCF, 0xABD13D59] ++
    [0x26D930AC, 0x51DE003A, 0xC8D75180, 0xBFD06116, 0x21B4F4B5, 0x56B3C423, 0xCFBA9599, 0xB8BDA50F] ++
    [0x2802B89E, 0x5F058808, 0xC60CD9B2, 0xB10BE924, 0x2F6F7C87, 0x58684C11, 0xC1611DAB, 0xB6662D3D] := by decide +kernel

/-- 41_crc.md R128, rows 0x40 to 0x78. -/
theorem test_crcTable_1 : (List.range' 64 64).map (fun n => crcTable (BitVec.ofNat 8 n)) =
    [0x76DC4190, 0x01DB7106, 0x98D220BC, 0xEFD5102A, 0x71B18589, 0x06B6B51F, 0x9FBFE4A5, 0xE8B8D433] ++
    [0x7807C9A2, 0x0F00F934, 0x9609A88E, 0xE10E9818, 0x7F6A0DBB, 0x086D3D2D, 0x91646C97, 0xE6635C01] ++
    [0x6B6B51F4, 0x1C6C6162, 0x856530D8, 0xF262004E, 0x6C0695ED, 0x1B01A57B, 0x8208F4C1, 0xF50FC457] ++
    [0x65B0D9C6, 0x12B7E950, 0x8BBEB8EA, 0xFCB9887C, 0x62DD1DDF, 0x15DA2D49, 0x8CD37CF3, 0xFBD44C65] ++
    [0x4DB26158, 0x3AB551CE, 0xA3BC0074, 0xD4BB30E2, 0x4ADFA541, 0x3DD895D7, 0xA4D1C46D, 0xD3D6F4FB] ++
    [0x4369E96A, 0x346ED9FC, 0xAD678846, 0xDA60B8D0, 0x44042D73, 0x33031DE5, 0xAA0A4C5F, 0xDD0D7CC9] ++
    [0x5005713C, 0x270241AA, 0xBE0B1010, 0xC90C2086, 0x5768B525, 0x206F85B3, 0xB966D409, 0xCE61E49F] ++
    [0x5EDEF90E, 0x29D9C998, 0xB0D09822, 0xC7D7A8B4, 0x59B33D17, 0x2EB40D81, 0xB7BD5C3B, 0xC0BA6CAD] := by decide +kernel

/-- 41_crc.md R128, rows 0x80 to 0xB8. -/
theorem test_crcTable_2 : (List.range' 128 64).map (fun n => crcTable (BitVec.ofNat 8 n)) =
    [0xEDB88320, 0x9ABFB3B6, 0x03B6E20C, 0x74B1D29A, 0xEAD54739, 0x9DD277AF, 0x04DB2615, 0x73DC1683] ++
    [0xE3630B12, 0x94643B84, 0x0D6D6A3E, 0x7A6A5AA8, 0xE40ECF0B, 0x9309FF9D, 0x0A00AE27, 0x7D079EB1] ++
    [0xF00F9344, 0x8708A3D2, 0x1E01F268, 0x6906C2FE, 0xF762575D, 0x806567CB, 0x196C3671, 0x6E6B06E7] ++
    [0xFED41B76, 0x89D32BE0, 0x10DA7A5A, 0x67DD4ACC, 0xF9B9DF6F, 0x8EBEEFF9, 0x17B7BE43, 0x60B08ED5] ++
    [0xD6D6A3E8, 0xA1D1937E, 0x38D8C2C4, 0x4FDFF252, 0xD1BB67F1, 0xA6BC5767, 0x3FB506DD, 0x48B2364B] ++
    [0xD80D2BDA, 0xAF0A1B4C, 0x36034AF6, 0x41047A60, 0xDF60EFC3, 0xA867DF55, 0x316E8EEF, 0x4669BE79] ++
    [0xCB61B38C, 0xBC66831A, 0x256FD2A0, 0x5268E236, 0xCC0C7795, 0xBB0B4703, 0x220216B9, 0x5505262F] ++
    [0xC5BA3BBE, 0xB2BD0B28, 0x2BB45A92, 0x5CB36A04, 0xC2D7FFA7, 0xB5D0CF31, 0x2CD99E8B, 0x5BDEAE1D] := by decide +kernel

/-- 41_crc.md R128, rows 0xC0 to 0xF8. -/
theorem test_crcTable_3 : (List.range' 192 64).map (fun n => crcTable (BitVec.ofNat 8 n)) =
    [0x9B64C2B0, 0xEC63F226, 0x756AA39C, 0x026D930A, 0x9C0906A9, 0xEB0E363F, 0x72076785, 0x05005713] ++
    [0x95BF4A82, 0xE2B87A14, 0x7BB12BAE, 0x0CB61B38, 0x92D28E9B, 0xE5D5BE0D, 0x7CDCEFB7, 0x0BDBDF21] ++
    [0x86D3D2D4, 0xF1D4E242, 0x68DDB3F8, 0x1FDA836E, 0x81BE16CD, 0xF6B9265B, 0x6FB077E1, 0x18B74777] ++
    [0x88085AE6, 0xFF0F6A70, 0x66063BCA, 0x11010B5C, 0x8F659EFF, 0xF862AE69, 0x616BFFD3, 0x166CCF45] ++
    [0xA00AE278, 0xD70DD2EE, 0x4E048354, 0x3903B3C2, 0xA7672661, 0xD06016F7, 0x4969474D, 0x3E6E77DB] ++
    [0xAED16A4A, 0xD9D65ADC, 0x40DF0B66, 0x37D83BF0, 0xA9BCAE53, 0xDEBB9EC5, 0x47B2CF7F, 0x30B5FFE9] ++
    [0xBDBDF21C, 0xCABAC28A, 0x53B39330, 0x24B4A3A6, 0xBAD03605, 0xCDD70693, 0x54DE5729, 0x23D967BF] ++
    [0xB3667A2E, 0xC4614AB8, 0x5D681B02, 0x2A6F2B94, 0xB40BBE37, 0xC30C8EA1, 0x5A05DF1B, 0x2D02EF8D] := by decide +kernel

/-- K12 to K17. -/
theorem test_crcUpd :
    crcUpd 0xFFFFFFFF 0x00 = 0x2DFD1072 ∧ crcUpd 0xFFFFFFFF 0x31 = 0x7C231048 ∧ crcUpd 0 0 = 0 ∧
    crcUpd 0 0x80 = 0xEDB88320 ∧ crcUpd 0xFFFFFFFF 0xFF = 0x00FFFFFF ∧ crcUpd 0x12345678 0x9A = 0x4E16B702 := by
  decide +kernel

/-- K1, K2, K3, K5, K6. -/
theorem test_checksum :
    checksum [] = 0 ∧ checksum [0x61] = 0xE8B7BE43 ∧
    checksum [0x31, 0x32, 0x33, 0x34, 0x35, 0x36, 0x37, 0x38, 0x39] = 0xCBF43926 ∧
    checksum [0x52, 0x75, 0x73, 0x74] = 0x41002D9E ∧ checksum (rust ++ msg) = 0xABD1D84E := by decide +kernel

/-! ## One step of each command -/

/-- N1, N3. -/
theorem test_nop : (after .nop State.reset).readReg .status = 0x182 ∧
    report (after .nop (stepped (doing (.write (.reg 0x08) 32 0xFF)))) = [0x18A, 0x00FF0007, 0xFF, 0] := by decide

/-- N4: CLEAR after the illegal word of N2. -/
theorem test_clear : report (after .clear (stepped (doing (.write (.reg 0x08) 32 0xFF)))) = [0x182, 0, 0, 0] := by
  decide

/-- T1, T2, T16. -/
theorem test_typeCheck_valid :
    report (after .typeCheck (typed 0x52757374 0 0)) = [0x6C2, 0, 0, 0] ∧
    report (after .typeCheck (typed 0x52755374 0 0)) = [0x4C2, 0, 0, 0] ∧
    report (after .typeCheck (typed 0x61426344 0 0)) = [0x342, 0, 0, 0] := by decide

/-- T3, T8, T12. -/
theorem test_typeCheck_invalid :
    report (after .typeCheck (typed 0x52753174 0 0)) = [0x68C, 0x00100002, 2, 0x31] ∧
    report (after .typeCheck (typed 0x61626360 0 0)) = [0x60C, 0x00100002, 3, 0x60] ∧
    report (after .typeCheck (typed 0 0 0)) = [0x18C, 0x00100002, 0, 0] := by decide

/-- T26: the last legal window of length 4. -/
theorem test_typeParse_valid :
    (after .typeParse (holding 4092 4 4092 [0x41, 0x42, 0x43, 0x44])).readReg .status = 0x1C2 ∧
    (after .typeParse (holding 4092 4 4092 [0x41, 0x42, 0x43, 0x44])).typeCode = 0x41424344 := by decide

/-- T21, T24b, T22, T25. -/
theorem test_typeParse_invalid :
    report (after .typeParse (holding 100 4 100 [0x52, 0x75, 0x31, 0x74])) = [0x18C, 0x00110002, 2, 0x31] ∧
    report (after .typeParse (holding 100 4 100 [0x52, 0x00, 0x73, 0x74])) = [0x18C, 0x00110002, 1, 0] ∧
    report (after .typeParse (holding 100 2 100 [0x52, 0x75])) = [0x18C, 0x00110001, 2, 0] ∧
    report (after .typeParse (holding 4094 4 0 [])) = [0x18C, 0x00110008, 0xFFE, 4] := by decide

/-- K20. -/
theorem test_crcInit : (after .crcInit { State.reset with acc := 0x12345678 }).readReg .acc = 0xFFFFFFFF ∧
    (after .crcInit { State.reset with acc := 0x12345678 }).readReg .crcRes = 0 := by decide

/-- K21, K22. -/
theorem test_crcByte :
    (after .crcByte { State.reset with din := 0x31 }).readReg .acc = 0x7C231048 ∧
    (after .crcByte { State.reset with din := 0x31 }).readReg .crcRes = 0x83DCEFB7 ∧
    (after .crcByte { State.reset with din := 0x80, acc := 0 }).readReg .acc = 0xEDB88320 := by decide +kernel

/-- K23. -/
theorem test_crcBuf : (after .crcBuf (holding 0 4 0 [0x31, 0x32, 0x33, 0x34])).readReg .acc = 0x641C1F5C ∧
    (after .crcBuf (holding 0 4 0 [0x31, 0x32, 0x33, 0x34])).readReg .crcRes = 0x9BE3E0A3 := by decide +kernel

/-- K26, K27, K28: the end of IBUF, and a sum that does not wrap. -/
theorem test_crcBuf_window :
    report (after .crcBuf (holding 4096 0 0 [])) = [0x182, 0, 0, 0] ∧
    report (after .crcBuf (holding 4097 0 0 [])) = [0x18C, 0x00220008, 0x1001, 0] ∧
    report (after .crcBuf (holding 0xFFFFFFFF 2 0 [])) = [0x18C, 0x00220008, 0xFFFFFFFF, 2] := by decide

/-- S1 with only the length field loaded: no fault (M3 likewise). -/
theorem test_slice_reads_the_length_field :
    (after .slice (holding 0 64 0 [0, 0, 0, 0x2A])).readReg .len = 0x2A ∧
    (after .slice (holding 0 64 0 [0, 0, 0, 0x2A])).readReg .span = 0x36 ∧
    (after .slice (holding 0 64 0 [0, 0, 0, 0x2A])).faulted = false := by decide

/-- S3, S4, S5: S4's span needs 33 bits. -/
theorem test_slice_invalid :
    report (after .slice (holding 8 12 8 [0, 0, 0, 0x2A])) = [0x18C, 0x00300004, 0x36, 0x0C] ∧
    report (after .slice (holding 8 12 8 [0xFF, 0xFF, 0xFF, 0xFF])) = [0x18C, 0x00300004, 0x0B, 0x0C] ∧
    (after .slice (holding 8 12 8 [0xFF, 0xFF, 0xFF, 0xFF])).readReg .errInfo0Hi = 1 ∧
    report (after .slice (holding 8 11 8 [])) = [0x18C, 0x00300003, 0x0B, 0x0C] := by decide

/-- F1, F3. -/
theorem test_decode_valid :
    [Reg.status, .len, .span, .type, .crcStored, .crcCalc, .dataOff].map (after .decode (holding 8 54 8 frameF1)).readReg =
      [0x4E2, 0x2A, 0x36, 0x52755374, 0xABD1D84E, 0xABD1D84E, 0x10] ∧
    [Reg.status, .len, .span, .type, .crcStored, .crcCalc, .dataOff].map (after .decode (holding 8 12 8 iend0)).readReg =
      [0x1E2, 0, 0x0C, 0x49454E44, 0xAE426082, 0xAE426082, 0x10] := by decide +kernel

/-- F2, F4, F6, F7, F11. -/
theorem test_decode_invalid :
    report (after .decode (holding 8 54 8 (frameF1.take 53 ++ [0x4D]))) = [0x18C, 0x00310006, 0xABD1D84D, 0xABD1D84E] ∧
    report (after .decode (holding 8 55 8 (frameF1 ++ [0]))) = [0x18C, 0x00310005, 1, 0] ∧
    report (after .decode (holding 8 53 8 (frameF1.take 53))) = [0x18C, 0x00310004, 0x36, 0x35] ∧
    report (after .decode (holding 8 16 8 [0x80, 0, 0, 0])) = [0x18C, 0x00310204, 0x8000000C, 0x10] ∧
    report (after .decode (holding 8 14 8
      [0, 0, 0, 2, 0x52, 0x75, 0x31, 0x74, 0x68, 0x69, 0, 0, 0, 0])) = [0x18C, 0x00310006, 0, 0x439300FB] := by
  decide +kernel

/-- X2, X9. -/
theorem test_next :
    [Reg.status, .len, .span, .type, .crcStored, .dataOff, .base, .avail].map (after .next (holding 8 17 8 frameH)).readReg =
      [0x462, 5, 0x11, 0x74655374, 0xA1F1C5CE, 0x10, 0x19, 0] ∧
    [Reg.status, .base, .avail].map (after .next (holding 4096 0 0 [])).readReg = [0x192, 0x1000, 0] := by
  decide +kernel

/-- X3, X4, X5, X6 (X6's trailer is the checksum of its own type and data), X7. -/
theorem test_next_invalid :
    report (after .next (holding 8 5 8 [0, 0, 0, 5, 0x74])) = [0x18C, 0x00320403, 5, 0x0C] ∧
    report (after .next (holding 8 16 8 (frameH.take 16))) = [0x18C, 0x00320404, 0x11, 0x10] ∧
    report (after .next (holding 8 17 8 (frameH.take 13 ++ [0, 0, 0, 0]))) = [0x18C, 0x00320806, 0, 0xA1F1C5CE] ∧
    report (after .next (holding 8 17 8 (frameImage 5 [0x74, 0x65, 0x53, 0x34] hello
      (checksum ([0x74, 0x65, 0x53, 0x34] ++ hello))))) = [0x18C, 0x00320902, 3, 0x34] ∧
    report (after .next (holding 8 12 8 [0x80, 0, 0, 0])) = [0x18C, 0x00320404, 0x8000000C, 0x0C] := by
  decide +kernel

/-- C6v, C2v. -/
theorem test_construct :
    [Reg.status, .len, .span, .crcCalc, .dataOff].map
      (after .construct { holding 100 5 100 hello with typeCode := 0x74655374 }).readReg =
      [0x442, 5, 0x11, 0xA1F1C5CE, 0x64] ∧
    [Reg.status, .len, .span, .crcCalc, .dataOff].map (after .construct (typed 0x49454E44 0 0)).readReg =
      [0x1C2, 0, 0x0C, 0xAE426082, 0] := by decide +kernel

/-- C3v, C4v, and the LENGTH_TOO_LARGE case at P_IBUF_SIZE = 2^32 − 1. -/
theorem test_construct_invalid :
    report (after .construct (typed 0 0 0)) = [0x18C, 0x00330102, 0, 0] ∧
    report (after .construct (typed 0x52755374 4000 200)) = [0x48C, 0x00330008, 0xFA0, 0xC8] ∧
    report (after .construct { typed 0x52755374 0 0x80000000 with params :=
      { Params.vectors with ibufSize := 0xFFFFFFFF } }) = [0x48C, 0x00330204, 0x8000000C, 0x80000000] := by decide

/-! ## One step of each host access -/

/-- N2, N5, N7: illegal words; CRC_INIT did not run in N7. -/
theorem test_illegal_word :
    report (stepped (doing (.write (.reg 0x08) 32 0xFF))) = [0x18C, 0x00FF0007, 0xFF, 0] ∧
    report (stepped (doing (.write (.reg 0x08) 32 0x131))) = [0x18C, 0x00310007, 0x131, 0] ∧
    report (stepped { doing (.write (.reg 0x08) 32 0x80000020) with acc := 5 }) = [0x18C, 0x00200007, 0x80000020, 0] ∧
    (stepped { doing (.write (.reg 0x08) 32 0x80000020) with acc := 5 }).acc = 5 := by decide

/-- N8, N11. -/
theorem test_register_reads : [0x00, 0x04, 0x08, 0x24, 0x80].map
    (fun o => (stepped (doing (.read (.reg o) 32))).observed) =
    [[⟨.reg 0x00, 0x504E4743⟩], [⟨.reg 0x04, 0x1000⟩], [⟨.reg 0x08, 0⟩], [⟨.reg 0x24, 0⟩], [⟨.reg 0x80, 0⟩]] := by
  decide

/-- N9, N10, N11; T19 by 10_state.md R25 and R31, which keep OK (log 16: the vector's own 0x480 drops it). -/
theorem test_register_writes :
    (stepped (doing (.write (.reg 0x28) 32 7))).len = 0 ∧
    (stepped (doing (.write (.reg 0x18) 32 0x131))).din = 0x31 ∧
    stepped (doing (.write (.reg 0x80) 32 0x1234)) = State.reset ∧
    (stepped { doing (.write (.reg 0x1C) 32 0x52755374) with
      typeCode := 0x52755374, status := ⟨true, false, false, false, false, true⟩ }).readReg .status = 0x482 := by
  decide

/-- IBUF accesses (20_memory.md R61). -/
theorem test_ibuf_accesses :
    (stepped (doing (.write (.ibuf 4095) 8 0x1FF))).ibuf = [(4095, 0xFF)] ∧
    (stepped { doing (.read (.ibuf 7) 8) with ibuf := [(7, 0x2A)] }).observed = [⟨.ibuf 7, 0x2A⟩] ∧
    (stepped (doing (.read (.ibuf 7) 8))).faulted = true := by decide

/-- M1: refused accesses change no register. -/
theorem test_refused_accesses :
    stepped (doing (.write (.reg 0x10) 16 5)) = { State.reset with faulted := true } ∧
    stepped (doing (.read (.reg 0x11) 32)) = { State.reset with faulted := true } ∧
    stepped (doing (.write (.ibuf 4096) 8 5)) = { State.reset with faulted := true } := by decide

/-- M2, M4: unwritten bytes; M5: the flag stays through a reset. -/
theorem test_model_faults :
    (after .decode (holding 8 17 8 [0, 0, 0, 5])).faulted = true ∧
    (after .typeParse (holding 0 4 0 [])).faulted = true ∧
    (stepped { doing .reset with faulted := true, base := 5, ibuf := [(7, 1)] }).faulted = true ∧
    (stepped { doing .reset with faulted := true, base := 5, ibuf := [(7, 1)] }).ibuf = [] := by decide

/-- withFetchWord: the very next step runs the word's command (10_state.md R28). -/
theorem test_withFetchWord : (stepped (State.reset.withFetchWord 32 0x20)).readReg .status = 0x182 ∧
    (stepped (State.reset.withFetchWord 32 0x34)).readReg .status = 0x18C := by decide

/-- 30_encoding.md R87, R88: program P1's lines after the load. -/
theorem test_checksumLines : checksumLines 0 9 =
    [.write (.reg 0x10) 32 0, .write (.reg 0x14) 32 9, .write (.reg 0x08) 32 0x20, .write (.reg 0x08) 32 0x22,
      .read (.reg 0x24) 32] := by decide

/-! ## Witnesses: a state and operands that meet all hypotheses of each statement, for each clause -/

/-- A state with P_IBUF_SIZE = 2^32 − 1. -/
def wide (s : State) : State := { s with params := { Params.vectors with ibufSize := 0xFFFFFFFF } }

/-- The largest word below 256, the smallest above, and a word whose OPC is a command's. -/
theorem witness_IllegalWordRaisesIllegalCmd :
    (doing (.write (.reg 0x08) 32 0xFF)).pending = .write (.reg 0x08) 32 0xFF :: [] ∧
    (∀ i, (0xFF : BitVec 64).setWidth 32 ≠ encode i) ∧ (∀ i, (0x100 : BitVec 64).setWidth 32 ≠ encode i) ∧
    ∀ i, (0x131 : BitVec 64).setWidth 32 ≠ encode i := by
  refine ⟨rfl, ?_, ?_, ?_⟩ <;> intro i <;> cases i <;> decide

theorem witness_CmdWriteRunsTheDecodedCommand :
    (doing (.write (.reg 0x08) 32 0x33)).pending = .write (.reg 0x08) 32 0x33 :: [] ∧
    decode ((0x33 : BitVec 64).setWidth 32) = .ok .construct ∧ decode 0x00000000 = .ok .nop := by decide

theorem witness_TypeCheckValidatesType :
    (∀ i < 4, Letter (typeByte (typed 0x415A617A 0 0).typeCode i)) ∧
    ((3 < 4 ∧ ∀ j < 3, Letter (typeByte (typed 0x41424380 0 0).typeCode j)) ∧
      ¬ Letter (typeByte (typed 0x41424380 0 0).typeCode 3)) ∧
    ((0 < 4 ∧ ∀ j < 0, Letter (typeByte (typed 0x40414141 0 0).typeCode j)) ∧
      ¬ Letter (typeByte (typed 0x40414141 0 0).typeCode 0)) := by decide

theorem witness_TypeParseLoadsTheWindow :
    ¬ (holding 4093 4 0 []).windowFits ∧
    ((holding 4096 0 0 []).windowFits ∧ (holding 4096 0 0 []).avail ≠ 4) ∧
    ((holding 4092 4 4092 [0x52, 0x75, 0x73, 0x7B]).windowIs ([0x52, 0x75, 0x73] ++ 0x7B :: []) ∧
      (holding 4092 4 4092 [0x52, 0x75, 0x73, 0x7B]).avail = 4 ∧ (∀ b ∈ [(0x52 : Byte), 0x75, 0x73], Letter b) ∧
      ¬ Letter 0x7B) ∧
    ((holding 4092 4 4092 rust).windowIs rust ∧ (holding 4092 4 4092 rust).avail = 4 ∧ ValidType rust) := by decide

theorem witness_CrcBufFoldsTheWindow :
    ¬ (holding 4097 0 0 []).windowFits ∧
    (holding 4091 5 4091 hello).windowIs hello ∧
    ((holding 4091 5 4091 (hello.take 4)).windowFits ∧
      (holding 4091 5 4091 (hello.take 4)).someUnwritten 4091 5) := by decide

theorem witness_SliceFindsTheSpan :
    ¬ (holding 4097 0 0 []).windowFits ∧
    ((holding 4085 11 0 []).windowFits ∧ (holding 4085 11 0 []).avail.toNat < 12) ∧
    ((holding 4084 12 4084 [0, 0, 0, 1]).windowFits ∧ 12 ≤ (holding 4084 12 4084 [0, 0, 0, 1]).avail.toNat ∧
      1 < 2 ^ 32 ∧ (holding 4084 12 4084 [0, 0, 0, 1]).holds 4084 (bytesBe32 1) ∧
      (holding 4084 12 4084 [0, 0, 0, 1]).avail.toNat < 12 + 1) ∧
    ((holding 4084 12 4084 [0, 0, 0, 0]).windowFits ∧ 0 < 2 ^ 32 ∧
      (holding 4084 12 4084 [0, 0, 0, 0]).holds 4084 (bytesBe32 0) ∧
      12 + 0 ≤ (holding 4084 12 4084 [0, 0, 0, 0]).avail.toNat) := by decide

/-- Clauses 1 to 5 of DECODE. -/
theorem witness_DecodeChecksOneRecord_length :
    ¬ (holding 4097 0 0 []).windowFits ∧
    ((holding 4085 11 0 []).windowFits ∧ (holding 4085 11 0 []).avail.toNat < 12) ∧
    ((holding 8 12 8 [0x80, 0, 0, 0]).windowFits ∧ 12 ≤ (holding 8 12 8 [0x80, 0, 0, 0]).avail.toNat ∧
      2 ^ 31 < 2 ^ 32 ∧ (holding 8 12 8 [0x80, 0, 0, 0]).holds 8 (bytesBe32 (2 ^ 31)) ∧ 2 ^ 31 ≤ 2 ^ 31) ∧
    ((holding 8 12 8 [0x7F, 0xFF, 0xFF, 0xFF]).windowFits ∧
      12 ≤ (holding 8 12 8 [0x7F, 0xFF, 0xFF, 0xFF]).avail.toNat ∧ 2 ^ 31 - 1 < 2 ^ 31 ∧
      (holding 8 12 8 [0x7F, 0xFF, 0xFF, 0xFF]).holds 8 (bytesBe32 (2 ^ 31 - 1)) ∧
      (holding 8 12 8 [0x7F, 0xFF, 0xFF, 0xFF]).avail.toNat < 12 + (2 ^ 31 - 1)) ∧
    ((holding 8 13 8 [0, 0, 0, 0]).windowFits ∧ 12 ≤ (holding 8 13 8 [0, 0, 0, 0]).avail.toNat ∧ 0 < 2 ^ 31 ∧
      (holding 8 13 8 [0, 0, 0, 0]).holds 8 (bytesBe32 0) ∧
      12 + 0 < (holding 8 13 8 [0, 0, 0, 0]).avail.toNat) := by decide

/-- Clauses 6 to 8 of DECODE: F2, F9, F3 and F1. -/
theorem witness_DecodeChecksOneRecord_content :
    (rust.length = 4 ∧ msg.length < 2 ^ 31 ∧
      (holding 8 54 8 (frameF1.take 53 ++ [0x4D])).windowIs (frameImage msg.length rust msg 0xABD1D84D) ∧
      (0xABD1D84D : Word) ≠ checksum (rust ++ msg)) ∧
    (([0x52, 0x75] ++ (0x31 : Byte) :: [0x74]).length = 4 ∧ [(0x68 : Byte), 0x69].length < 2 ^ 31 ∧
      (holding 8 14 8 [0, 0, 0, 2, 0x52, 0x75, 0x31, 0x74, 0x68, 0x69, 0x43, 0x93, 0x00, 0xFB]).windowIs
        (frameImage [(0x68 : Byte), 0x69].length ([0x52, 0x75] ++ 0x31 :: [0x74]) [0x68, 0x69]
          (checksum ([0x52, 0x75] ++ 0x31 :: [0x74] ++ [0x68, 0x69]))) ∧
      (∀ b ∈ [(0x52 : Byte), 0x75], Letter b) ∧ ¬ Letter 0x31) ∧
    (ValidRecord [0x49, 0x45, 0x4E, 0x44] [] ∧ (holding 8 12 8 iend0).windowIs
      (frameImage 0 [0x49, 0x45, 0x4E, 0x44] [] (checksum ([0x49, 0x45, 0x4E, 0x44] ++ [])))) ∧
    (ValidRecord rust msg ∧ (holding 8 54 8 frameF1).windowIs
      (frameImage msg.length rust msg (checksum (rust ++ msg)))) := by decide +kernel

/-- Clauses 1 to 5 of NEXT; the fifth needs P_IBUF_SIZE of at least 2^31 + 12. -/
theorem witness_NextWalksOneRecord_length :
    ¬ (holding 4096 1 0 []).windowFits ∧
    ((holding 4096 0 0 []).windowFits ∧ (holding 4096 0 0 []).avail = 0) ∧
    ((holding 4085 11 0 []).windowFits ∧ (holding 4085 11 0 []).avail ≠ 0 ∧
      (holding 4085 11 0 []).avail.toNat < 12) ∧
    ((holding 8 12 8 [0x80, 0, 0, 0]).windowFits ∧ 12 ≤ (holding 8 12 8 [0x80, 0, 0, 0]).avail.toNat ∧
      2 ^ 31 < 2 ^ 32 ∧ (holding 8 12 8 [0x80, 0, 0, 0]).holds 8 (bytesBe32 (2 ^ 31)) ∧
      (holding 8 12 8 [0x80, 0, 0, 0]).avail.toNat < 12 + 2 ^ 31) ∧
    ((wide (holding 0 0x8000000C 0 [0x80, 0, 0, 0])).windowFits ∧ 2 ^ 31 < 2 ^ 32 ∧
      (wide (holding 0 0x8000000C 0 [0x80, 0, 0, 0])).holds 0 (bytesBe32 (2 ^ 31)) ∧
      12 + 2 ^ 31 ≤ (wide (holding 0 0x8000000C 0 [0x80, 0, 0, 0])).avail.toNat ∧ 2 ^ 31 ≤ 2 ^ 31) := by decide

/-- Clauses 6 to 8 of NEXT, over a window that goes on after the record. -/
theorem witness_NextWalksOneRecord_content :
    (rust.length = 4 ∧ msg.length < 2 ^ 31 ∧ (holding 8 60 8 (frameF1.take 53 ++ [0x4D])).windowFits ∧
      12 + msg.length ≤ (holding 8 60 8 (frameF1.take 53 ++ [0x4D])).avail.toNat ∧
      (holding 8 60 8 (frameF1.take 53 ++ [0x4D])).holds 8 (frameImage msg.length rust msg 0xABD1D84D) ∧
      (0xABD1D84D : Word) ≠ checksum (rust ++ msg)) ∧
    (([0x52, 0x75] ++ (0x31 : Byte) :: [0x74]).length = 4 ∧ [(0x68 : Byte), 0x69].length < 2 ^ 31 ∧
      (holding 8 14 8 [0, 0, 0, 2, 0x52, 0x75, 0x31, 0x74, 0x68, 0x69, 0x43, 0x93, 0x00, 0xFB]).windowFits ∧
      12 + [(0x68 : Byte), 0x69].length ≤
        (holding 8 14 8 [0, 0, 0, 2, 0x52, 0x75, 0x31, 0x74, 0x68, 0x69, 0x43, 0x93, 0x00, 0xFB]).avail.toNat ∧
      (holding 8 14 8 [0, 0, 0, 2, 0x52, 0x75, 0x31, 0x74, 0x68, 0x69, 0x43, 0x93, 0x00, 0xFB]).holds 8
        (frameImage [(0x68 : Byte), 0x69].length ([0x52, 0x75] ++ 0x31 :: [0x74]) [0x68, 0x69]
          (checksum ([0x52, 0x75] ++ 0x31 :: [0x74] ++ [0x68, 0x69]))) ∧
      (∀ b ∈ [(0x52 : Byte), 0x75], Letter b) ∧ ¬ Letter 0x31) ∧
    (ValidRecord rust msg ∧ (holding 8 54 8 frameF1).windowFits ∧
      12 + msg.length ≤ (holding 8 54 8 frameF1).avail.toNat ∧
      (holding 8 54 8 frameF1).holds 8 (frameImage msg.length rust msg (checksum (rust ++ msg)))) := by
  decide +kernel

theorem witness_ConstructComputesTheRecord :
    ¬ (typed 0x52755374 4097 0).windowFits ∧
    (((typed 0x52755340 4096 0).windowFits ∧ 3 < 4 ∧ ∀ j < 3, Letter (typeByte (typed 0x52755340 4096 0).typeCode j)) ∧
      ¬ Letter (typeByte (typed 0x52755340 4096 0).typeCode 3)) ∧
    ((wide (typed 0x52755374 0 0x80000000)).windowFits ∧
      (∀ i < 4, Letter (typeByte (wide (typed 0x52755374 0 0x80000000)).typeCode i)) ∧
      2 ^ 31 ≤ (wide (typed 0x52755374 0 0x80000000)).avail.toNat) ∧
    ((typed 0x52755374 4096 0).windowIs [] ∧ (∀ i < 4, Letter (typeByte (typed 0x52755374 4096 0).typeCode i)) ∧
      ([] : List Byte).length < 2 ^ 31) := by decide

/-- Every command answers a next state, so the frames and the statements over `exec i s = next t` speak of something:
FrameOfTheRegisterCommands, FrameOfCrcBufAndSlice, FrameOfTheTypeAndRecordCommands, UnwrittenReadIsAModelFault,
NextKeepsTheWindowEnd. -/
theorem witness_everyCommandAnswersNext (s : State) : ∀ i, ∃ t, exec i s = .next t := by
  intro i
  cases i <;> exact ⟨_, rfl⟩

/-- The frames' premise on the window. -/
theorem witness_windowWritten : (holding 4091 5 4091 hello).windowWritten ∧ (holding 4096 0 0 []).windowWritten := by
  decide

/-- A failing command word, legal and illegal: FailedCommandWritesOnlyTheErrorRecord, OkAndErrDescribeTheLastCommand,
ErrStickyLatchesUntilClearOrReset (first clause), ErrorKindsByCommand. -/
theorem witness_failingWord :
    executeWord 0x10 (typed 0 0 0) = .next (after .typeCheck (typed 0 0 0)) ∧
    exec .typeCheck (typed 0 0 0) = .next (after .typeCheck (typed 0 0 0)) ∧
    (after .typeCheck (typed 0 0 0)).status.err = true ∧
    executeWord 0xFF State.reset = .next (State.raise 0xFF (illegalError 0xFF) State.reset) ∧
    (State.raise 0xFF (illegalError 0xFF) State.reset).status.err = true := by
  refine ⟨rfl, rfl, by decide, rfl, rfl⟩

/-- The clauses on SUB at their boundaries (R201): SLICE and CONSTRUCT at a length of 2^31, DECODE on both sides of it. -/
theorem witness_ErrorKindsByCommand_sub :
    (report (after .slice (holding 8 12 8 [0x80, 0, 0, 0])) = [0x18C, 0x00300004, 0x8000000C, 12] ∧
      errSubField (after .slice (holding 8 12 8 [0x80, 0, 0, 0])).errReg = false) ∧
    (report (after .construct (wide (typed 0x52755374 0 0x80000000))) = [0x48C, 0x00330204, 0x8000000C, 0x80000000] ∧
      errSubField (after .construct (wide (typed 0x52755374 0 0x80000000))).errReg = true) ∧
    errSubField (after .decode (holding 8 12 8 [0x80, 0, 0, 0])).errReg = true ∧
    errSubField (after .decode (holding 8 12 8 [0x7F, 0xFF, 0xFF, 0xFF])).errReg = false := by decide

theorem witness_SuccessKeepsTheErrorRecord : exec .nop State.reset = .next (after .nop State.reset) ∧
    (after .nop State.reset).status.ok = true ∧ Instr.nop ≠ .clear := ⟨rfl, rfl, by decide⟩

/-- ERR_STICKY is cleared by CLEAR and by reset. -/
theorem witness_ErrStickyLatchesUntilClearOrReset :
    (∃ t, step { doing (.write (.reg 0x08) 32 1) with status := ⟨false, true, true, false, false, false⟩ } = .next t ∧
      t.status.errSticky = false) ∧
    ∃ t, step { doing .reset with status := ⟨false, true, true, false, false, false⟩ } = .next t ∧
      t.status.errSticky = false := ⟨⟨_, rfl, rfl⟩, ⟨_, rfl, rfl⟩⟩

/-- Both sides of EOS, CRC_MATCH: X9, F3. -/
theorem witness_EosOnlyAfterNextOnAnEmptyWindow :
    executeWord 0x32 (holding 4096 0 0 []) = .next (after .next (holding 4096 0 0 [])) ∧
    (after .next (holding 4096 0 0 [])).status.eos = true ∧
    executeWord 0 (holding 4096 0 0 []) = .next (after .nop (holding 4096 0 0 [])) ∧
    (after .nop (holding 4096 0 0 [])).status.eos = false := ⟨rfl, rfl, rfl, rfl⟩

theorem witness_CrcMatchOnlyAfterADecodedRecord :
    executeWord 0x31 (holding 8 12 8 iend0) = .next (after .decode (holding 8 12 8 iend0)) ∧
    (after .decode (holding 8 12 8 iend0)).status.crcMatch = true := ⟨rfl, by decide +kernel⟩

/-- Clauses 1 to 4: TYPE_CHECK, a TYPE write and a 16-bit CMD write, reset, a BASE read. -/
theorem witness_TypeValidChangesOnlyAsStated :
    executeWord 0x10 (typed 0x52755374 0 0) = .next (after .typeCheck (typed 0x52755374 0 0)) ∧
    (after .typeCheck (typed 0x52755374 0 0)).status.ok = true ∧
    ((0x1C ≠ 0x08 ∨ 32 ≠ 32) ∧ (doing (.write (.reg 0x1C) 32 5)).pending = .write (.reg 0x1C) 32 5 :: [] ∧
      step (doing (.write (.reg 0x1C) 32 5)) = .next (stepped (doing (.write (.reg 0x1C) 32 5)))) ∧
    ((0x08 ≠ 0x08 ∨ 16 ≠ 32) ∧ (doing (.write (.reg 0x08) 16 0x10)).pending = .write (.reg 0x08) 16 0x10 :: [] ∧
      step (doing (.write (.reg 0x08) 16 0x10)) = .next (stepped (doing (.write (.reg 0x08) 16 0x10)))) ∧
    ((doing .reset).pending = .reset :: [] ∧ step (doing .reset) = .next (stepped (doing .reset))) ∧
    ((doing (.read (.reg 0x10) 32)).pending = .read (.reg 0x10) 32 :: [] ∧
      step (doing (.read (.reg 0x10) 32)) = .next (stepped (doing (.read (.reg 0x10) 32)))) :=
  ⟨rfl, by decide, ⟨by decide, rfl, rfl⟩, ⟨by decide, rfl, rfl⟩, ⟨rfl, rfl⟩, ⟨rfl, rfl⟩⟩

/-- One byte beyond the end, and the largest sum; a fitting window that fails for another reason. -/
theorem witness_WindowCheckComesFirst :
    (readsIbuf .slice = true ∧ (holding 4096 1 0 []).params.ibufSize.toNat <
      (holding 4096 1 0 []).base.toNat + (holding 4096 1 0 []).avail.toNat) ∧
    (readsIbuf .next = true ∧ (holding 0xFFFFFFFF 0xFFFFFFFF 0 []).params.ibufSize.toNat <
      (holding 0xFFFFFFFF 0xFFFFFFFF 0 []).base.toNat + (holding 0xFFFFFFFF 0xFFFFFFFF 0 []).avail.toNat) ∧
    ((after .slice (holding 4085 11 0 [])).status.err = true ∧ (holding 4085 11 0 []).windowFits) := by decide

/-- Each reading command over an unwritten byte it reads. -/
theorem witness_UnwrittenReadIsAModelFault :
    ((holding 4092 4 0 []).windowFits ∧ (holding 4092 4 0 []).avail = 4 ∧
      (holding 4092 4 0 []).someUnwritten 4092 4) ∧
    ((holding 4084 12 0 []).windowFits ∧ 12 ≤ (holding 4084 12 0 []).avail.toNat ∧
      (holding 4084 12 0 []).someUnwritten 4084 4) ∧
    ((holding 4084 12 4084 [0, 0, 0, 0]).holds 4084 (bytesBe32 0) ∧
      12 + 0 = (holding 4084 12 4084 [0, 0, 0, 0]).avail.toNat ∧
      (holding 4084 12 4084 [0, 0, 0, 0]).someUnwritten 4084 12) ∧
    (∀ i < 4, Letter (typeByte (typed 0x52755374 4095 1).typeCode i)) ∧
    ((typed 0x52755374 4095 1).windowFits ∧ (typed 0x52755374 4095 1).someUnwritten 4095 1) ∧
    readsIbuf .crcByte = false := by decide

theorem witness_FaultFlagIsNeverCleared : step { doing .reset with faulted := true } =
    .next (stepped { doing .reset with faulted := true }) ∧ ({ doing .reset with faulted := true } : State).faulted = true :=
  ⟨rfl, rfl⟩

/-- Two memories that agree inside the window only. -/
theorem witness_CommandsDependOnlyOnTheWindow : ∀ j, (holding 8 1 8 [5]).base.toNat ≤ j →
    j < (holding 8 1 8 [5]).base.toNat + (holding 8 1 8 [5]).avail.toNat →
    Memory.read [(7, 1), (8, 5)] j = (holding 8 1 8 [5]).ibuf.read j := by
  intro j h1 h2
  have hb : (holding 8 1 8 [5]).base.toNat = 8 := rfl
  have ha : (holding 8 1 8 [5]).avail.toNat = 1 := rfl
  obtain rfl : j = 8 := by omega
  rfl

theorem witness_OutcomesDependOnNoOtherParameter :
    (⟨4096, 0x100, 0x4000, 7, .asynchronous⟩ : Params).ibufSize = State.reset.params.ibufSize ∧
    step (doing (.read (.reg 0) 32)) = .next (stepped (doing (.read (.reg 0) 32))) := ⟨rfl, rfl⟩

/-- K23 and K24 as one pass: "1" through DIN, then "23". -/
theorem witness_CrcByteThenCrcBufIsOnePass :
    ({ holding 1 2 0 [0x31, 0x32, 0x33] with din := 0x31 } : State).din = 0x31 ∧
    ({ holding 1 2 0 [0x31, 0x32, 0x33] with din := 0x31 } : State).windowIs [0x32, 0x33] ∧
    (holding 0 3 0 [0x31, 0x32, 0x33]).windowIs (0x31 :: [0x32, 0x33]) ∧
    (holding 0 3 0 [0x31, 0x32, 0x33]).acc = ({ holding 1 2 0 [0x31, 0x32, 0x33] with din := 0x31 } : State).acc := by
  decide

/-- CrcResReadsTheChecksum, DecodeAcceptsExactlyTheValidRecords, NextDecodesExactlyALeadingRecord: written windows. -/
theorem witness_windowIs : (holding 4091 5 4091 hello).windowIs hello ∧ (holding 4096 0 0 []).windowIs [] ∧
    (holding 8 12 8 iend0).windowIs iend0 := by decide

/-- W5: "hello" constructed at 100 and its image at 200. -/
theorem witness_ConstructThenDecodeRoundTrips :
    ({ holding 100 5 100 hello with typeCode := 0x74655374 } : State).windowIs hello ∧
    (exec .construct { holding 100 5 100 hello with typeCode := 0x74655374 } =
      .next (after .construct { holding 100 5 100 hello with typeCode := 0x74655374 })) ∧
    (after .construct { holding 100 5 100 hello with typeCode := 0x74655374 }).status.ok = true ∧
    (holding 200 17 200 frameH).base.toNat = 200 ∧ (holding 200 17 200 frameH).avail.toNat = 12 + hello.length ∧
    (holding 200 17 200 frameH).windowFits ∧
    (holding 200 17 200 frameH).holds 200 (frameImage hello.length (typeBytes 0x74655374) hello
      (after .construct { holding 100 5 100 hello with typeCode := 0x74655374 }).crcCalc) := by
  refine ⟨by decide, rfl, by decide +kernel, rfl, rfl, by decide, by decide +kernel⟩

/-- F10: byte 49 bit 0 of F1 ('!' becomes ' '). -/
theorem witness_AnySingleBitFlipIsAnInvalidCrc :
    ValidRecord rust msg ∧ rust ++ msg = (rust ++ msg.take 41) ++ (0x21 : Byte) :: [] ∧ 0 < 8 ∧
    (holding 0 54 0 ([0, 0, 0, 0x2A] ++ rust ++ msg.take 41 ++ [0x20, 0xAB, 0xD1, 0xD8, 0x4E])).windowIs
      (bytesBe32 msg.length ++ ((rust ++ msg.take 41) ++ ((0x21 : Byte) ^^^ BitVec.twoPow 8 0) :: []) ++
        bytesBe32 (checksum (rust ++ msg)).toNat) := by decide +kernel

/-- A written, non-empty window where SLICE succeeds, and one where it fails (X2, X3). -/
theorem witness_NextIsSliceThenDecodeThenAdvance :
    ((holding 8 17 8 frameH).windowFits ∧ (holding 8 17 8 frameH).avail ≠ 0 ∧
      (holding 8 17 8 frameH).windowWritten ∧ (after .slice (holding 8 17 8 frameH)).status.ok = true) ∧
    ((holding 8 5 8 [0, 0, 0, 5, 0x74]).windowFits ∧ (holding 8 5 8 [0, 0, 0, 5, 0x74]).avail ≠ 0 ∧
      (holding 8 5 8 [0, 0, 0, 5, 0x74]).windowWritten ∧
      (after .slice (holding 8 5 8 [0, 0, 0, 5, 0x74])).status.err = true) := by decide

/-- The branch where SLICE succeeds and DECODE on the span fails: iend0 with its last byte changed (R153). -/
theorem witness_NextIsSliceThenDecodeThenAdvance_decode_fails :
    ((holding 8 12 8 (iend0.take 11 ++ [0x83])).windowFits ∧ (holding 8 12 8 (iend0.take 11 ++ [0x83])).avail ≠ 0 ∧
      (holding 8 12 8 (iend0.take 11 ++ [0x83])).windowWritten ∧
      (after .slice (holding 8 12 8 (iend0.take 11 ++ [0x83]))).status.ok = true) ∧
    (after .decode { after .slice (holding 8 12 8 (iend0.take 11 ++ [0x83])) with
        avail := (after .slice (holding 8 12 8 (iend0.take 11 ++ [0x83]))).span }).status.err = true := by
  decide +kernel

theorem witness_NextCanBeRewound :
    exec .next (holding 8 17 8 frameH) = .next (after .next (holding 8 17 8 frameH)) ∧
    (after .next (holding 8 17 8 frameH)).status.ok = true ∧
    (after .next (holding 8 17 8 frameH)).status.eos = false := ⟨rfl, by decide +kernel, by decide +kernel⟩

/-- The lowest and the highest register offset. -/
theorem witness_RegisterReadsReturnTheMap :
    (doing (.read (.reg 0) 32)).pending = .read (.reg 0) 32 :: [] ∧ 0 % 4 = 0 ∧ 0 < 0x100 ∧
    (doing (.read (.reg 0xFC) 32)).pending = .read (.reg 0xFC) 32 :: [] ∧ 0xFC % 4 = 0 ∧ 0xFC < 0x100 := by decide

theorem witness_RegisterWritesFollowTheMap :
    ((doing (.write (.reg 0xFC) 32 5)).pending = .write (.reg 0xFC) 32 5 :: [] ∧ 0xFC % 4 = 0 ∧ 0xFC < 0x100 ∧
      0xFC ≠ 0x08) ∧
    ((doing (.write (.reg 0x08) 32 0x33)).pending = .write (.reg 0x08) 32 0x33 :: [] ∧
      0x08 % 4 = 0 ∧ 0x08 < 0x100) := by decide

theorem witness_IbufHostAccesses :
    ((doing (.write (.ibuf 4095) 8 5)).pending = .write (.ibuf 4095) 8 5 :: [] ∧
      4095 < (doing (.write (.ibuf 4095) 8 5)).params.ibufSize.toNat) ∧
    (({ doing (.read (.ibuf 0) 8) with ibuf := [(0, 9)] } : State).ibuf.read 0 = some 9) ∧
    ((doing (.read (.ibuf 0) 8)).pending = .read (.ibuf 0) 8 :: [] ∧ (doing (.read (.ibuf 0) 8)).ibuf.read 0 = none) ∧
    ((doing (.read (.ibuf 4096) 8)).pending = .read (.ibuf 4096) 8 :: [] ∧
      (doing (.read (.ibuf 4096) 8)).params.ibufSize.toNat ≤ 4096) ∧
    ((doing .reset).pending = .reset :: [] ∧ step (doing .reset) = .next (stepped (doing .reset))) :=
  ⟨⟨rfl, by decide⟩, rfl, ⟨rfl, rfl⟩, ⟨rfl, by decide⟩, rfl, rfl⟩

theorem witness_OtherAccessesAreRefused :
    (doing (.write (.reg 0x10) 16 5)).pending = .write (.reg 0x10) 16 5 :: [] ∧ 16 ≠ 32 ∧
    (doing (.read (.reg 0x11) 32)).pending = .read (.reg 0x11) 32 :: [] ∧ 0x11 % 4 ≠ 0 ∧
    (doing (.read (.reg 0x100) 32)).pending = .read (.reg 0x100) 32 :: [] ∧ 0x100 ≤ 0x100 ∧
    (doing (.read (.ibuf 0) 16)).pending = .read (.ibuf 0) 16 :: [] ∧ 16 ≠ 8 ∧
    (doing (.write (.ibuf 4096) 8 5)).pending = .write (.ibuf 4096) 8 5 :: [] ∧
    (doing (.write (.ibuf 4096) 8 5)).params.ibufSize.toNat ≤ 4096 := by decide

theorem witness_LoadWritesTheBytes :
    ({ State.reset with pending := loadLines 4091 hello } : State).pending = loadLines 4091 hello ++ [] ∧
    4091 + hello.length ≤ State.reset.params.ibufSize.toNat := by decide

/-- The premise of every clause about reset (OkAndErrDescribeTheLastCommand's too). -/
theorem witness_ResetRestoresEveryRegister : (doing .reset).pending = .reset :: [] := rfl

/-- The first and the last reserved offset. -/
theorem witness_PowerOnReadsTheResetValues :
    (0x4C ≤ 0x4C ∧ 0x4C < 0x100 ∧ 0x4C % 4 = 0) ∧ 0x4C ≤ 0xFC ∧ 0xFC < 0x100 ∧ 0xFC % 4 = 0 := by decide

/-- A state that meets each invariant, with a step that runs a command on it. -/
theorem witness_StepKeepsTypeValidMeansLetters :
    ({ doing (.write (.reg 0x08) 32 0x10) with
        typeCode := 0x52755374, status := ⟨true, false, false, false, false, true⟩ } : State).TypeInv ∧
    ∃ t, step { doing (.write (.reg 0x08) 32 0x10) with
        typeCode := 0x52755374, status := ⟨true, false, false, false, false, true⟩ } = .next t :=
  ⟨by unfold State.TypeInv; decide, ⟨_, rfl⟩⟩

theorem witness_StepKeepsStatusAndErrorRecordConsistent :
    (State.raise 0xFF (illegalError 0xFF) (doing (.write (.reg 0x08) 32 0x00))).StatusInv ∧
    ∃ t, step (State.raise 0xFF (illegalError 0xFF) (doing (.write (.reg 0x08) 32 0x00))) = .next t :=
  ⟨by constructor <;> decide, ⟨_, rfl⟩⟩

theorem witness_StepKeepsStorageCanonical :
    ({ holding 4091 5 4091 hello with pending := [.write (.ibuf 4095) 8 1] } : State).StorageInv ∧
    ∃ t, step { holding 4091 5 4091 hello with pending := [.write (.ibuf 4095) 8 1] } = .next t :=
  ⟨⟨by decide, by decide, by decide⟩, ⟨_, rfl⟩⟩

/-! ## A program's encoding (30_encoding.md R89) -/

/-- The triples of P1's lines, as 95_test_vectors.md section 7 writes them. -/
theorem test_programEncoding :
    programEncoding [lineWb 0 0x31, lineWr .avail 9, lineCmd .crcInit, lineRd .status] State.reset =
      [⟨.write, .ibuf 0, some 0x31⟩, ⟨.write, .reg 0x14, some 9⟩, ⟨.write, .reg 0x08, some 0x20⟩,
        ⟨.read, .reg 0x0C, some 0x182⟩] := by decide

/-- A byte write carries 8 bits, and a refused read no data. -/
theorem test_programEncoding_width :
    programEncoding [.write (.ibuf 0) 8 0x1FF, .read (.reg 0x10) 16, .reset] State.reset =
      [⟨.write, .ibuf 0, some 0xFF⟩, ⟨.read, .reg 0x10, none⟩] := by decide

/-- A permitted register read at both ends of the map, and a read of a written byte at the end of IBUF. -/
theorem witness_ProgramEncodingIsItsBusTransactions :
    (0 % 4 = 0 ∧ 0 < 0x100) ∧ (0xFC % 4 = 0 ∧ 0xFC < 0x100) ∧
    4095 < (holding 0 0 4095 [7]).params.ibufSize.toNat ∧ (holding 0 0 4095 [7]).ibuf.read 4095 = some 7 ∧
    (stepped (doing (.read (.reg 0) 32))).observed = ⟨.reg 0, Config.idWord⟩ :: (doing (.read (.reg 0) 32)).observed ∧
    (stepped (doing (.read (.reg 1) 32))).observed = (doing (.read (.reg 1) 32)).observed := by decide

theorem witness_LoadEncodesAsItsByteWrites : 4091 + hello.length ≤ State.reset.params.ibufSize.toNat ∧
    4 < hello.length := by decide

theorem witness_ProgramEncodingIgnoresTheBaseAddresses :
    (⟨4096, 0x100, 0x4000, 7, .asynchronous⟩ : Params).ibufSize = State.reset.params.ibufSize ∧
    programEncoding [lineRd .id] State.reset ≠ [] := by decide

end Sys2Proof.Tests
end

/-! The parameters (00_scope.md R6): a step reads P_IBUF_SIZE alone and keeps them all. -/

namespace Sys2Proof.Machine

/-- `s` in a block built with parameters `p`. -/
def State.withParams (p : Params) (s : State) : State := { s with params := p }

/-- A command's result, its staged writes in a block built with parameters `p`. -/
def CmdResult.withParams (p : Params) (r : CmdResult) : CmdResult :=
  { r with result := r.result.map (Prod.map id (State.withParams p)) }

/-! What reads no parameter. -/

@[simp] theorem State.withParams_base (p : Params) (s : State) : (s.withParams p).base = s.base := rfl
@[simp] theorem State.withParams_avail (p : Params) (s : State) : (s.withParams p).avail = s.avail := rfl
@[simp] theorem State.withParams_typeCode (p : Params) (s : State) : (s.withParams p).typeCode = s.typeCode := rfl
@[simp] theorem State.memRead_withParams (p : Params) (s : State) (k n : Nat) :
    (s.withParams p).memRead k n = s.memRead k n := rfl
@[simp] theorem sliceCore_withParams (p : Params) (s : State) (b a : Nat) :
    sliceCore (s.withParams p) b a = sliceCore s b a := rfl
@[simp] theorem decodeCore_withParams (p : Params) (s : State) (b a : Nat) :
    decodeCore (s.withParams p) b a = decodeCore s b a := rfl

/-- The end of a command carries the parameters through. -/
theorem State.complete_withParams (p : Params) (opc : Byte) (s : State) (r : CmdResult) :
    State.complete opc (s.withParams p) (r.withParams p) = (State.complete opc s r).withParams p := by
  rcases r with ⟨u, e | ⟨o, staged⟩⟩ <;> rfl

/-- TYPE_CHECK makes no window check, so it reads no parameter (40_type.md R103). -/
theorem typeCheckResult_withParams (p : Params) (s : State) :
    typeCheckResult (s.withParams p) = (typeCheckResult s).withParams p := by
  unfold typeCheckResult
  rw [State.withParams_typeCode]
  rcases typeScan (typeBytes s.typeCode) with _ | ⟨i, b⟩ <;> rfl

theorem State.writeReg_withParams (p : Params) (s : State) (v : Word) (r : Reg) :
    (s.withParams p).writeReg v r = (s.writeReg v r).withParams p := by
  cases r <;> rfl

/-! What reads P_IBUF_SIZE and no other parameter: the window check (20_memory.md R63), the commands that make it, the
host's accesses to IBUF (R66) and the CFG read (10_state.md R27). -/

section SameIbufSize

variable {p : Params} {s : State} (hp : p.ibufSize = s.params.ibufSize)
include hp

theorem State.windowCheck_withParams : (s.withParams p).windowCheck = s.windowCheck := by
  simp only [State.windowCheck, State.withParams, hp]

theorem typeParseResult_withParams : typeParseResult (s.withParams p) = (typeParseResult s).withParams p := by
  unfold typeParseResult
  rw [State.windowCheck_withParams hp]
  cases s.windowCheck with
  | some e => rfl
  | none =>
    simp only [State.withParams_base, State.withParams_avail, State.memRead_withParams]
    by_cases hlen : s.avail.toNat = Config.typeBytes
    · simp only [hlen, ne_eq, not_true_eq_false, ↓reduceIte]
      rcases typeScan (s.memRead s.base.toNat 4) with _ | ⟨i, b⟩ <;> rfl
    · simp only [hlen, ne_eq, not_false_eq_true, ↓reduceIte]
      rfl

theorem crcBufResult_withParams : crcBufResult (s.withParams p) = (crcBufResult s).withParams p := by
  unfold crcBufResult
  rw [State.windowCheck_withParams hp]
  cases s.windowCheck <;> rfl

theorem sliceResult_withParams : sliceResult (s.withParams p) = (sliceResult s).withParams p := by
  unfold sliceResult
  rw [State.windowCheck_withParams hp]
  cases s.windowCheck with
  | some e => rfl
  | none =>
    simp only [State.withParams_base, State.withParams_avail, sliceCore_withParams]
    rcases sliceCore s s.base.toNat s.avail.toNat with ⟨u, e | ⟨n, sp⟩⟩ <;> rfl

theorem decodeResult_withParams : decodeResult (s.withParams p) = (decodeResult s).withParams p := by
  unfold decodeResult
  rw [State.windowCheck_withParams hp]
  cases s.windowCheck with
  | some e => rfl
  | none =>
    simp only [State.withParams_base, State.withParams_avail, decodeCore_withParams]
    rcases decodeCore s s.base.toNat s.avail.toNat with ⟨u, e | f⟩ <;> rfl

theorem nextResult_withParams : nextResult (s.withParams p) = (nextResult s).withParams p := by
  unfold nextResult
  rw [State.windowCheck_withParams hp]
  cases s.windowCheck with
  | some e => rfl
  | none =>
    simp only [State.withParams_base, State.withParams_avail, sliceCore_withParams, decodeCore_withParams]
    by_cases hend : s.avail.toNat = 0
    · simp only [hend, ↓reduceIte]
      rfl
    · simp only [hend, ↓reduceIte]
      rcases sliceCore s s.base.toNat s.avail.toNat with ⟨u, e | ⟨n, sp⟩⟩
      · rfl
      · dsimp only
        rcases decodeCore s s.base.toNat sp with ⟨u', e | f⟩ <;> rfl

theorem constructResult_withParams : constructResult (s.withParams p) = (constructResult s).withParams p := by
  unfold constructResult
  rw [State.windowCheck_withParams hp]
  cases s.windowCheck with
  | some e => rfl
  | none =>
    simp only [State.withParams_avail, State.withParams_typeCode]
    rcases typeScan (typeBytes s.typeCode) with _ | ⟨i, c⟩
    · by_cases hlen : s.avail.toNat ≥ Config.lenLimit
      · simp only [hlen, ↓reduceIte]
        rfl
      · simp only [hlen, ↓reduceIte]
        rfl
    · rfl

theorem cmdResult_withParams (i : Instr) : cmdResult i (s.withParams p) = (cmdResult i s).withParams p := by
  cases i with
  | nop | clear | crcInit | crcByte => rfl
  | typeCheck => exact typeCheckResult_withParams p s
  | typeParse => exact typeParseResult_withParams hp
  | crcBuf => exact crcBufResult_withParams hp
  | slice => exact sliceResult_withParams hp
  | decode => exact decodeResult_withParams hp
  | next => exact nextResult_withParams hp
  | construct => exact constructResult_withParams hp

theorem exec_withParams (i : Instr) : exec i (s.withParams p) = mapNext (State.withParams p) (exec i s) := by
  rw [exec_eq_complete, exec_eq_complete, cmdResult_withParams hp, State.complete_withParams]
  rfl

theorem executeWord_withParams (w : Word) :
    executeWord w (s.withParams p) = mapNext (State.withParams p) (executeWord w s) := by
  rcases hd : decode w with r | i
  · rw [executeWord_of_reject hd, executeWord_of_reject hd]
    rfl
  · rw [executeWord_of_decode hd, executeWord_of_decode hd, exec_withParams hp]

theorem hostWriteReg_withParams (o : Nat) (v : Word) :
    hostWriteReg o v (s.withParams p) = mapNext (State.withParams p) (hostWriteReg o v s) := by
  unfold hostWriteReg
  split
  · exact executeWord_withParams hp v
  · rw [State.writeReg_withParams]
    rfl
  · rfl

theorem State.readOffset_withParams (o : Nat) : (s.withParams p).readOffset o = s.readOffset o := by
  unfold State.readOffset
  split
  next r _ =>
    cases r with
    | cfg => exact hp
    | _ => rfl
  next => rfl

theorem ibufAccessOk_withParams (k bits : Nat) :
    ibufAccessOk (s.withParams p).params k bits = ibufAccessOk s.params k bits := by
  simp only [ibufAccessOk, State.withParams, hp]

theorem performAction_withParams (a : HostAction) :
    performAction a (s.withParams p) = mapNext (State.withParams p) (performAction a s) := by
  unfold performAction
  split
  next o bits data =>
    split
    · exact hostWriteReg_withParams hp o _
    · rfl
  next k bits data =>
    rw [ibufAccessOk_withParams hp]
    split <;> rfl
  next o bits =>
    rw [State.readOffset_withParams hp]
    split <;> rfl
  next k bits =>
    rw [ibufAccessOk_withParams hp]
    split <;> rfl
  next => rfl

/-- A step in a block with another parameter set of the same P_IBUF_SIZE is the same step (00_scope.md R6). -/
theorem step_withParams : step (s.withParams p) = mapNext (State.withParams p) (step s) := by
  rcases hq : s.pending with _ | ⟨a, rest⟩
  · rw [step_nil hq, step_nil (s := s.withParams p) hq]
    rfl
  · rw [step_cons hq, step_cons (s := s.withParams p) hq]
    exact performAction_withParams (s := { s with pending := rest }) hp a

end SameIbufSize

/-- No step changes the parameters: `step_withParams` at the parameters the state has already (00_scope.md R6). -/
theorem step_params {s t : State} (h : step s = .next t) : t.params = s.params := by
  have hfix : step s = mapNext (State.withParams s.params) (step s) := step_withParams (s := s) (p := s.params) rfl
  rw [h] at hfix
  have hnext : t = t.withParams s.params := Host.Outcome.next.inj hfix
  calc t.params = (t.withParams s.params).params := congrArg State.params hnext
    _ = s.params := rfl

/-- Settles O33: P_IBUF_SIZE is the one parameter a step reads, so replacing the others commutes with the step. -/
theorem outcomesDependOnNoOtherParameter : Obligations.OutcomesDependOnNoOtherParameter := by
  unfold Obligations.OutcomesDependOnNoOtherParameter
  exact ⟨fun _ _ hp => step_withParams hp, fun _ _ h => step_params h⟩

end Sys2Proof.Machine

/-! The command words: a word is a command's word or no command's (30_encoding.md R81, R85, R86). -/

namespace Sys2Proof

@[simp] theorem decode_encode (i : Instr) : decode (encode i) = .ok i := by cases i <;> rfl

theorem encode_injective {i j : Instr} (h : encode i = encode j) : i = j :=
  Except.ok.inj <| by rw [← decode_encode i, h, decode_encode j]

@[simp] theorem encode_inj {i j : Instr} : encode i = encode j ↔ i = j :=
  ⟨encode_injective, congrArg encode⟩

/-- Only a command's own word decodes to it: RSVD = 0 leaves OPC alone (R80, R82). -/
theorem eq_encode_of_decode {w : Word} {i : Instr} (h : decode w = .ok i) : w = encode i := by
  unfold decode at h
  split at h
  next => simp at h
  next hr =>
    split at h
    next j hl =>
      obtain rfl := Except.ok.inj h
      have hopc := congrArg BitVec.toNat (lookupOpc_some hl)
      have hlt := (rsvdField_eq_zero_iff w).1 (not_not.1 hr)
      rw [opcField_toNat, Nat.mod_eq_of_lt hlt, ← encode_toNat] at hopc
      exact BitVec.eq_of_toNat_eq hopc
    next => simp at h

theorem ne_encode_of_reject {w : Word} {r : DecodeReject} (h : decode w = .error r) (i : Instr) : w ≠ encode i := by
  rintro rfl
  simp at h

end Sys2Proof

/-! What a command word leaves in STATUS and the error record, said once (60_exceptions.md R201 to R203): the options
and staged writes of every success, the error of every failure. -/

namespace Sys2Proof.Machine

@[simp] theorem kindCode_eq_two_iff (k : ErrKind) : kindCode k = 2#8 ↔ k = .invalidCharacter := by
  cases k <;> decide

theorem kindCode_bounds (k : ErrKind) : 1 ≤ (kindCode k).toNat ∧ (kindCode k).toNat ≤ 8 := by
  cases k <;> decide

@[simp] theorem errKindField_errWord (opc : Byte) (e : CmdError) : errKindField (errWord opc e) = kindCode e.kind :=
  errKindField_packErr ..

@[simp] theorem errWrappedField_errWord (opc : Byte) (e : CmdError) : errWrappedField (errWord opc e) = e.wrapped :=
  errWrappedField_packErr ..

@[simp] theorem errSubField_errWord (opc : Byte) (e : CmdError) : errSubField (errWord opc e) = e.sub :=
  errSubField_packErr ..

@[simp] theorem errStageField_errWord (opc : Byte) (e : CmdError) : errStageField (errWord opc e) = e.stage :=
  errStageField_packErr ..

@[simp] theorem errOpcField_errWord (opc : Byte) (e : CmdError) : errOpcField (errWord opc e) = opc :=
  errOpcField_packErr ..

/-- An error whose record keeps to 10_state.md R48, R49: each option and each payload above 32 bits stands only where
the rules put it. -/
structure CmdError.Recordable (opc : Byte) (e : CmdError) : Prop where
  /-- WRAPPED only with INVALID_CHARACTER (60_exceptions.md R206). -/
  wrapped : e.wrapped = true → e.kind = .invalidCharacter
  /-- SUB only with LENGTH_TOO_LARGE. -/
  sub : e.sub = true → e.kind = .lengthTooLarge
  /-- STAGE only from NEXT. -/
  stage : e.stage ≠ 0 → opc = opcodeOf .next
  /-- Only LENGTH_TOO_LARGE has a payload of more than 32 bits. -/
  info0 : e.kind ≠ .lengthTooLarge → e.info0 < 2 ^ 32

/-- What the success of command `i` in state `s` says of its options `o` and its staged writes. -/
structure Succeeds (i : Instr) (s : State) (o : FinishOpts) (staged : State) : Prop where
  /-- EOS comes from NEXT on an empty window (10_state.md R33). -/
  eos : o.eos = true ↔ i = .next ∧ s.avail = 0 ∧ s.windowFits
  /-- CRC_MATCH comes from a decoded record (R34). -/
  crcMatch : o.crcMatch = true ↔ i = .decode ∨ (i = .next ∧ o.eos = false)
  crcEq : o.crcMatch = true → staged.crcStored = staged.crcCalc
  /-- TYPE_VALID comes from a passed letter test (R35). -/
  setTv : o.setTv = true ↔ i = .typeCheck ∨ i = .typeParse ∨ i = .decode ∨ i = .construct ∨ (i = .next ∧ o.eos = false)
  letters : o.setTv = true → ∀ b ∈ typeBytes staged.typeCode, Letter b
  typeCode : o.setTv = false → staged.typeCode = s.typeCode
  /-- CLEAR alone stages a STATUS bit and the error record (43_control.md R181). -/
  status : staged.status = if i = .clear then { s.status with errSticky := false } else s.status
  recordCleared : i = .clear → staged.errReg = 0 ∧ staged.errInfo0 = 0 ∧ staged.errInfo1 = 0
  recordKept : i ≠ .clear →
    staged.errReg = s.errReg ∧ staged.errInfo0 = s.errInfo0 ∧ staged.errInfo1 = s.errInfo1

/-- What the failure of command `i` in state `s` says of its error. -/
structure Fails (i : Instr) (s : State) (e : CmdError) : Prop where
  /-- The end of stream is no error (42_frame.md R147). -/
  notEos : ¬ (i = .next ∧ s.avail = 0 ∧ s.windowFits)
  /-- TYPE_VALID is cleared by a failed letter test on TYPE (10_state.md R35). -/
  clearTv : e.clearTv = true ↔ i = .typeCheck ∨ (i = .construct ∧ e.kind = .invalidCharacter)
  recordable : e.Recordable (opcodeOf i)

theorem succeeds_of_result {i : Instr} {s staged : State} {o : FinishOpts}
    (h : (cmdResult i s).result = .ok (o, staged)) : Succeeds i s o staged := by
  cases i <;> simp only [cmdResult] at h
  case nop | clear | crcInit | crcByte =>
    obtain ⟨rfl, rfl⟩ := Prod.mk.inj (Except.ok.inj h)
    constructor <;> simp
  case typeCheck =>
    rcases typeCheckResult_cases s with ⟨_, _, _, he⟩ | ⟨hl, he⟩ <;> rw [he] at h <;> simp at h
    obtain ⟨rfl, rfl⟩ := h
    constructor <;> simp
    case letters => exact (typeScan_eq_none_iff _).1 hl
  case typeParse =>
    rcases typeParseResult_cases s with ⟨_, he⟩ | ⟨_, _, he⟩ | ⟨_, _, _, _, _, he⟩ | ⟨_, _, hl, he⟩ <;>
      rw [he] at h <;> simp at h
    obtain ⟨rfl, rfl⟩ := h
    constructor <;> simp
    case letters =>
      rw [typeBytes_be32 (by simp)]
      exact (typeScan_eq_none_iff _).1 hl
  case crcBuf =>
    rcases crcBufResult_cases s with ⟨_, he⟩ | ⟨_, he⟩ <;> rw [he] at h <;> simp at h
    obtain ⟨rfl, rfl⟩ := h
    constructor <;> simp
  case slice =>
    rcases sliceResult_cases s with ⟨_, he⟩ | ⟨_, _, _, _, he⟩ | ⟨_, _, _, _, _, he⟩ <;> rw [he] at h <;> simp at h
    obtain ⟨rfl, rfl⟩ := h
    constructor <;> simp
  case decode =>
    rcases decodeResult_cases s with ⟨_, he⟩ | ⟨_, _, _, _, he⟩ | ⟨_, f, _, hd, he⟩ <;> rw [he] at h <;> simp at h
    obtain ⟨rfl, rfl⟩ := h
    obtain ⟨hcrc, -, -, -, hlen, hl, -⟩ := decodeCore_ok hd
    constructor <;> simp [hcrc]
    case letters => rwa [typeBytes_be32 hlen]
  case next =>
    rcases nextResult_cases s with ⟨_, he⟩ | ⟨hf, h0, he⟩ | ⟨_, _, _, _, _, he⟩ | ⟨_, _, _, _, _, _, _, _, _, he⟩ |
      ⟨_, _, _, _, f, _, h0, _, hd, he⟩ <;> rw [he] at h <;> simp at h
    · obtain ⟨rfl, rfl⟩ := h
      constructor <;> simp
      case eos => exact ⟨BitVec.eq_of_toNat_eq h0, hf⟩
    · obtain ⟨rfl, rfl⟩ := h
      obtain ⟨hcrc, -, -, -, hlen, hl, -⟩ := decodeCore_ok hd
      constructor <;> simp [hcrc]
      case eos => exact fun ha => absurd (congrArg BitVec.toNat ha) h0
      case letters => rwa [typeBytes_be32 hlen]
  case construct =>
    rcases constructResult_cases s with ⟨_, he⟩ | ⟨_, _, _, _, he⟩ | ⟨_, _, _, he⟩ | ⟨_, hl, _, he⟩ <;>
      rw [he] at h <;> simp at h
    obtain ⟨rfl, rfl⟩ := h
    constructor <;> simp
    case letters => exact (typeScan_eq_none_iff _).1 hl

/-- ILLEGAL_CMD, whatever OPC it is recorded under (43_control.md R182). -/
theorem illegalError_recordable (opc : Byte) (w : Word) : (illegalError w).Recordable opc :=
  ⟨by simp [illegalError], by simp [illegalError], by simp [illegalError], fun _ => w.isLt⟩

@[simp] theorem illegalError_clearTv (w : Word) : (illegalError w).clearTv = false := rfl

/-- The parts of a failure that each command's checks decide: no end of stream, which failures clear TYPE_VALID, where
WRAPPED stands, and the size of the first payload. -/
theorem cmdResult_error_options {i : Instr} {s : State} {e : CmdError} (h : (cmdResult i s).result = .error e) :
    ¬ (i = .next ∧ s.avail = 0 ∧ s.windowFits) ∧
    (e.clearTv = true ↔ i = .typeCheck ∨ (i = .construct ∧ e.kind = .invalidCharacter)) ∧
    (e.wrapped = true → e.kind = .invalidCharacter) ∧ (e.kind ≠ .lengthTooLarge → e.info0 < 4294967296) := by
  have hb : s.base.toNat < 4294967296 := s.base.isLt
  have ha : s.avail.toNat < 4294967296 := s.avail.isLt
  cases i <;> simp only [cmdResult] at h
  case nop | clear | crcInit | crcByte => simp at h
  case typeCheck =>
    rcases typeCheckResult_cases s with ⟨n, b, hn, he⟩ | ⟨_, he⟩ <;> rw [he] at h <;> simp at h
    have hn4 : n < 4 := typeScan_lt hn
    simp [← h]
    omega
  case typeParse =>
    rcases typeParseResult_cases s with ⟨_, he⟩ | ⟨_, _, he⟩ | ⟨n, _, _, _, hn, he⟩ | ⟨_, _, _, he⟩ <;>
      rw [he] at h <;> simp at h
    · simp [← h, hb]
    · simp [← h, ha]
    · have hn4 := typeScan_lt hn
      rw [State.memRead_length] at hn4
      simp [← h]
      omega
  case crcBuf =>
    rcases crcBufResult_cases s with ⟨_, he⟩ | ⟨_, he⟩ <;> rw [he] at h <;> simp at h
    simp [← h, hb]
  case slice =>
    rcases sliceResult_cases s with ⟨_, he⟩ | ⟨_, _, _, hc, he⟩ | ⟨_, _, _, _, _, he⟩ <;> rw [he] at h <;> simp at h
    · simp [← h, hb]
    · subst h
      obtain ⟨hclear, -, hw, -, hk, -, h0, -⟩ := sliceCore_error hc
      exact ⟨by simp, by simp [hclear], by simp [hw],
        fun hne => Nat.lt_trans (h0 (hk.resolve_right hne)) (by decide)⟩
  case decode =>
    rcases decodeResult_cases s with ⟨_, he⟩ | ⟨_, _, _, hd, he⟩ | ⟨_, _, _, _, he⟩ <;> rw [he] at h <;> simp at h
    · simp [← h, hb]
    · subst h
      obtain ⟨hclear, -, hw, -, -, h0, -⟩ := decodeCore_error hd
      exact ⟨by simp, by simp [hclear], hw.1, fun hne => h0 hne ha⟩
  case next =>
    rcases nextResult_cases s with ⟨hf, he⟩ | ⟨_, _, he⟩ | ⟨_, _, _, hne0, hc, he⟩ |
      ⟨_, n, sp, _, _, _, hne0, hc, hd, he⟩ | ⟨_, _, _, _, _, _, _, _, _, he⟩ <;> rw [he] at h <;> simp at h
    · exact ⟨fun ⟨_, _, hfits⟩ => hf hfits, by simp [← h], by simp [← h], by simp [← h, hb]⟩
    · subst h
      obtain ⟨hclear, -, hw, -, hk, -, h0, -⟩ := sliceCore_error hc
      exact ⟨fun ⟨_, h00, _⟩ => hne0 (by simp [h00]), by simp [hclear], by simp [hw],
        fun hne => Nat.lt_trans (h0 (hk.resolve_right hne)) (by decide)⟩
    · subst h
      obtain ⟨-, -, hle⟩ := sliceCore_ok hc
      obtain ⟨hclear, -, hw, -, -, h0, -⟩ := decodeCore_error hd
      exact ⟨fun ⟨_, h00, _⟩ => hne0 (by simp [h00]), by simp [hclear], hw.1, fun hne => h0 hne (by omega)⟩
  case construct =>
    rcases constructResult_cases s with ⟨_, he⟩ | ⟨n, _, _, hn, he⟩ | ⟨_, _, _, he⟩ | ⟨_, _, _, he⟩ <;>
      rw [he] at h <;> simp at h
    · simp [← h, hb]
    · have hn4 : n < 4 := typeScan_lt hn
      simp [← h]
      omega
    · simp [← h]

theorem fails_of_result {i : Instr} {s : State} {e : CmdError} (h : (cmdResult i s).result = .error e) :
    Fails i s e := by
  obtain ⟨hsub, -, -, -, -, hstage⟩ := cmdResult_error h
  obtain ⟨heos, hclear, hwrapped, hinfo⟩ := cmdResult_error_options h
  refine ⟨heos, hclear, hwrapped, fun hs => (hsub hs).1, fun ht => ?_, hinfo⟩
  rw [(hstage.1 ht).1]

/-- Everything the execution of a word can do: its command succeeds, its command fails, or it is no command
(30_encoding.md R81). -/
theorem executeWord_outcome {w : Word} {s t : State} (h : executeWord w s = .next t) :
    (∃ i o staged u, w = encode i ∧ Succeeds i s o staged ∧ t = State.noteUnwritten u (State.finish o staged)) ∨
    (∃ i e u, w = encode i ∧ Fails i s e ∧ t = State.noteUnwritten u (State.raise (opcodeOf i) e s)) ∨
    ((∀ i, w ≠ encode i) ∧ t = State.raise (opcField w) (illegalError w) s) := by
  rcases executeWord_cases h with ⟨i, hd, hx⟩ | ⟨r, hd, ht⟩
  · have hw := eq_encode_of_decode hd
    rcases exec_cases hx with ⟨e, hr, ht⟩ | ⟨o, staged, hr, ht⟩
    · exact .inr (.inl ⟨i, e, _, hw, fails_of_result hr, ht⟩)
    · exact .inl ⟨i, o, staged, _, hw, succeeds_of_result hr, ht⟩
  · exact .inr (.inr ⟨ne_encode_of_reject hd, ht⟩)

/-! What one step can do to the registers. -/

/-- A property of the registers is kept by every step if command words, register writes and reset keep it: nothing
else a host action changes is a register (00_scope.md R13). -/
theorem step_keeps {P : State → Prop}
    (hframe : ∀ s (m : Memory) (f : Bool) (n : Nat) (q : List HostAction) (ob : List Observation), P s →
      P { s with ibuf := m, faulted := f, draws := n, pending := q, observed := ob })
    (hword : ∀ w s t, P s → executeWord w s = .next t → P t)
    (hwrite : ∀ r v s, P s → P (s.writeReg v r))
    (hreset : ∀ s, P (hostReset s)) {s t : State} (hs : P s) (h : step s = .next t) : P t := by
  rcases step_cases h with ⟨-, rfl⟩ | ⟨a, rest, -, ha⟩
  · exact hs
  have hq : P { s with pending := rest } := hframe s _ _ _ _ _ hs
  rcases performAction_cases ha with ⟨d, -, hx⟩ | ⟨o, d, -, -, -, ⟨r, -, rfl⟩ | ⟨-, rfl⟩⟩ | rfl | ⟨k, d, -, -, rfl⟩ |
    ⟨o, -, rfl⟩ | ⟨k, -, -, rfl⟩ | ⟨-, rfl⟩
  · exact hword _ _ _ hq hx
  · exact hwrite _ _ _ hq
  · exact hq
  · exact hframe _ _ _ _ _ _ hq
  · exact hframe _ _ _ _ _ _ hq
  · exact hframe _ _ _ _ _ _ hq
  · exact hframe _ _ _ _ _ _ (hframe _ _ _ _ _ (⟨.ibuf k, _⟩ :: _) hq)
  · exact hreset _

/-! ## The TYPE invariant (10_state.md R56) -/

theorem executeWord_keeps_typeInv (w : Word) (s t : State) (hs : s.TypeInv) (h : executeWord w s = .next t) :
    t.TypeInv := by
  rcases executeWord_outcome h with ⟨i, o, staged, u, -, hok, rfl⟩ | ⟨i, e, u, -, -, rfl⟩ | ⟨-, rfl⟩
  · intro htv
    cases hset : o.setTv
    case true => exact hok.letters hset
    case false =>
      have hold : s.status.typeValid = true := by
        have : staged.status.typeValid = true := by simpa [statusFinished, hset] using htv
        rw [hok.status] at this
        split at this <;> exact this
      change ∀ b ∈ typeBytes staged.typeCode, Letter b
      rw [hok.typeCode hset]
      exact hs hold
  · intro htv
    exact hs (Bool.and_eq_true_iff.1 htv).2
  · exact hs

theorem State.writeReg_keeps_typeInv (r : Reg) (v : Word) (s : State) (hs : s.TypeInv) : (s.writeReg v r).TypeInv := by
  cases r
  case type => exact fun htv => nomatch htv
  all_goals exact hs

/-- Settles O53: TYPE changes only together with a letter test or with TYPE_VALID = 0. -/
theorem stepKeepsTypeValidMeansLetters : Obligations.StepKeepsTypeValidMeansLetters := by
  unfold Obligations.StepKeepsTypeValidMeansLetters
  exact fun s t => step_keeps (fun _ _ _ _ _ _ hs => hs) executeWord_keeps_typeInv State.writeReg_keeps_typeInv
    (fun _ htv => nomatch htv)

/-! ## STATUS and the error record (10_state.md R31 to R34, R46, R48, R49) -/

/-- A failure's record says what 10_state.md R48 and R49 ask, whatever the state was before. -/
theorem State.raise_statusInv {opc : Byte} {e : CmdError} (he : e.Recordable opc) (s : State) :
    (State.raise opc e s).StatusInv := by
  constructor <;> simp only [State.raise_status, State.raise_errReg, State.raise_errInfo0, errKindField_errWord,
    errWrappedField_errWord, errSubField_errWord, errStageField_errWord, errOpcField_errWord]
  case okErr | errSticky | eosOk | crcMatchOk | crcMatchEq | clean => simp [statusFailed]
  case kind => exact fun _ => kindCode_bounds e.kind
  case reserved => exact packErr_reserved ..
  case wrapped => exact fun hw => by rw [he.wrapped hw]; rfl
  case sub => exact fun hs => by rw [he.sub hs]; rfl
  case stage => exact he.stage
  case infoHi =>
    intro hhi
    by_contra hk
    have hlt := he.info0 (fun hl => hk (by rw [hl]; rfl))
    refine hhi (BitVec.eq_of_toNat_eq ?_)
    rw [BitVec.extractLsb'_toNat, BitVec.toNat_ofNat, Nat.shiftRight_eq_div_pow, Nat.div_eq_of_lt]
    · rfl
    · omega

/-- With ERR_STICKY = 0 and ERR = 0, an empty error record meets every clause about it. -/
theorem State.statusInv_of_emptyRecord {s : State} (herr : s.status.err = false) (hlatch : s.status.errSticky = false)
    (heos : s.status.eos = true → s.status.ok = true) (hmatch : s.status.crcMatch = true → s.status.ok = true)
    (heq : s.status.crcMatch = true → s.crcStored = s.crcCalc) (hreg : s.errReg = 0) (h0 : s.errInfo0 = 0)
    (h1 : s.errInfo1 = 0) : s.StatusInv where
  okErr := by simp [herr]
  errSticky := by simp [herr]
  eosOk := heos
  crcMatchOk := hmatch
  crcMatchEq := heq
  clean := fun _ => ⟨hreg, h0, h1⟩
  kind := by simp [hlatch]
  reserved := by rw [hreg]; decide
  wrapped := by rw [hreg]; decide
  sub := by rw [hreg]; decide
  stage := by rw [hreg]; decide
  infoHi := by rw [h0]; simp

/-- A success keeps the error record and its latch, except that CLEAR empties both (60_exceptions.md R203, R181). -/
theorem State.finish_statusInv {i : Instr} {s staged : State} {o : FinishOpts} (hok : Succeeds i s o staged)
    (hs : s.StatusInv) : (State.finish o staged).StatusInv := by
  by_cases hi : i = .clear
  · obtain ⟨hreg, h0, h1⟩ := hok.recordCleared hi
    have hlatch : staged.status.errSticky = false := by rw [hok.status, if_pos hi]
    exact State.statusInv_of_emptyRecord rfl hlatch (fun _ => rfl) (fun _ => rfl) hok.crcEq hreg h0 h1
  · obtain ⟨hreg, h0, h1⟩ := hok.recordKept hi
    have hstatus := hok.status
    rw [if_neg hi] at hstatus
    constructor <;> simp only [State.finish_status, statusFinished, State.finish_errReg, State.finish_errInfo0,
      State.finish_errInfo1, State.finish_crcStored, State.finish_crcCalc, hstatus, hreg, h0, h1]
    case okErr | errSticky | eosOk | crcMatchOk => simp
    exacts [hok.crcEq, hs.clean, hs.kind, hs.reserved, hs.wrapped, hs.sub, hs.stage, hs.infoHi]

theorem executeWord_keeps_statusInv (w : Word) (s t : State) (hs : s.StatusInv) (h : executeWord w s = .next t) :
    t.StatusInv := by
  rcases executeWord_outcome h with ⟨i, o, staged, u, -, hok, rfl⟩ | ⟨i, e, u, -, hfail, rfl⟩ | ⟨-, rfl⟩
  · exact { State.finish_statusInv hok hs with }
  · exact { State.raise_statusInv hfail.recordable s with }
  · exact State.raise_statusInv (illegalError_recordable _ w) s

theorem State.writeReg_keeps_statusInv (r : Reg) (v : Word) (s : State) (hs : s.StatusInv) :
    (s.writeReg v r).StatusInv := by
  cases r <;> exact { hs with }

theorem State.powerOn_statusInv (p : Params) : (State.powerOn p).StatusInv :=
  State.statusInv_of_emptyRecord rfl rfl (fun h => h) (fun h => h) (fun _ => rfl) rfl rfl rfl

/-- Settles O54: a failure writes the whole error record, and a success keeps it or, for CLEAR, empties it. -/
theorem stepKeepsStatusAndErrorRecordConsistent : Obligations.StepKeepsStatusAndErrorRecordConsistent := by
  unfold Obligations.StepKeepsStatusAndErrorRecordConsistent
  exact fun s t => step_keeps (fun _ _ _ _ _ _ hs => { hs with }) executeWord_keeps_statusInv
    State.writeReg_keeps_statusInv (fun s => { State.powerOn_statusInv s.params with })

/-- Settles O56: after power-on TYPE_VALID = 0, the error record and IBUF are empty, and LEN and SPAN are 0. -/
theorem powerOnMeetsTheInvariants : Obligations.PowerOnMeetsTheInvariants := by
  unfold Obligations.PowerOnMeetsTheInvariants
  exact fun p => ⟨(fun htv => nomatch htv), State.powerOn_statusInv p,
    ⟨List.Pairwise.nil, (fun _ hc => nomatch hc), .inr ⟨rfl, rfl⟩⟩⟩

/-! ## What each command word leaves in STATUS (10_state.md R31 to R35) -/

/-- Settles O22: success writes OK = 1 and ERR = 0, failure the opposite, and reset clears both. -/
theorem okAndErrDescribeTheLastCommand : Obligations.OkAndErrDescribeTheLastCommand := by
  unfold Obligations.OkAndErrDescribeTheLastCommand
  refine ⟨fun w s t h => ?_, fun p => ⟨rfl, rfl⟩, fun s t rest hp h => ?_⟩
  · rcases executeWord_outcome h with ⟨i, o, staged, u, hw, -, rfl⟩ | ⟨i, e, u, -, -, rfl⟩ | ⟨-, rfl⟩
    · exact ⟨rfl, fun hne => absurd hw (hne i)⟩
    · exact ⟨rfl, fun _ => rfl⟩
    · exact ⟨rfl, fun _ => rfl⟩
  · rw [step_cons hp] at h
    obtain rfl := Host.Outcome.next.inj h
    exact ⟨rfl, rfl⟩

/-- A command word that unlatches ERR_STICKY is CLEAR's (10_state.md R32). -/
theorem eq_clear_of_errSticky_cleared {w : Word} {s t : State} (h : executeWord w s = .next t)
    (hs : s.status.errSticky = true) (ht : t.status.errSticky = false) : w = encode .clear := by
  rcases executeWord_outcome h with ⟨i, o, staged, u, rfl, hok, rfl⟩ | ⟨i, e, u, -, -, rfl⟩ | ⟨-, rfl⟩
  · by_contra hne
    have hstatus : staged.status = s.status := by rw [hok.status, if_neg (by simpa using hne)]
    have hst : staged.status.errSticky = false := ht
    rw [hstatus, hs] at hst
    exact nomatch hst
  · exact nomatch ht
  · exact nomatch ht

/-- TYPE is the one register whose write touches STATUS (10_state.md R25, R35). -/
theorem State.writeReg_status (s : State) (v : Word) (r : Reg) :
    (s.writeReg v r).status = if r = .type then { s.status with typeValid := false } else s.status := by
  cases r <;> rfl

/-- Settles O23: every failure goes through `raise`, and of the host's actions only reset and CLEAR's word write 0. -/
theorem errStickyLatchesUntilClearOrReset : Obligations.ErrStickyLatchesUntilClearOrReset := by
  unfold Obligations.ErrStickyLatchesUntilClearOrReset
  refine ⟨fun w s t h herr => ?_, fun s t h hs ht => ?_⟩
  · rcases executeWord_outcome h with ⟨i, o, staged, u, -, -, rfl⟩ | ⟨i, e, u, -, -, rfl⟩ | ⟨-, rfl⟩
    · exact nomatch herr
    · rfl
    · rfl
  · have hne : s.status.errSticky ≠ false := by simp [hs]
    rcases step_cases h with ⟨-, rfl⟩ | ⟨a, rest, hp, ha⟩
    · exact absurd ht hne
    refine ⟨rest, ?_⟩
    rcases performAction_cases ha with ⟨d, rfl, hx⟩ | ⟨o, d, -, -, -, ⟨r, -, rfl⟩ | ⟨-, rfl⟩⟩ | rfl |
      ⟨k, d, -, -, rfl⟩ | ⟨o, -, rfl⟩ | ⟨k, -, -, rfl⟩ | ⟨rfl, rfl⟩
    · exact .inr ⟨d, hp, eq_clear_of_errSticky_cleared hx hs ht⟩
    · rw [State.writeReg_status] at ht
      split at ht <;> exact absurd ht hne
    · exact absurd ht hne
    · exact absurd ht hne
    · exact absurd ht hne
    · exact absurd ht hne
    · exact absurd ht hne
    · exact .inl hp

/-- Settles O24: a success writes EOS as its options say, a failure writes 0 and is no NEXT on an empty window. -/
theorem eosOnlyAfterNextOnAnEmptyWindow : Obligations.EosOnlyAfterNextOnAnEmptyWindow := by
  unfold Obligations.EosOnlyAfterNextOnAnEmptyWindow
  intro w s t h
  rcases executeWord_outcome h with ⟨i, o, staged, u, rfl, hok, rfl⟩ | ⟨i, e, u, rfl, hfail, rfl⟩ | ⟨hno, rfl⟩
  · simpa [statusFinished] using hok.eos
  · simpa [statusFailed] using hfail.notEos
  · simp [statusFailed, hno]

/-- Settles O25: a success writes CRC_MATCH as its options say, a failure writes 0. -/
theorem crcMatchOnlyAfterADecodedRecord : Obligations.CrcMatchOnlyAfterADecodedRecord := by
  unfold Obligations.CrcMatchOnlyAfterADecodedRecord
  intro w s t h
  rcases executeWord_outcome h with ⟨i, o, staged, u, rfl, hok, rfl⟩ | ⟨i, e, u, -, -, rfl⟩ | ⟨-, rfl⟩
  · exact ⟨by simpa [statusFinished] using hok.crcMatch, hok.crcEq⟩
  · simp [statusFailed]
  · simp [statusFailed]

/-- TYPE_VALID after a command word (10_state.md R35). -/
theorem executeWord_typeValid {w : Word} {s t : State} (h : executeWord w s = .next t) :
    t.status.typeValid =
      if t.status.ok = true then
        (if w = encode .typeCheck ∨ w = encode .typeParse ∨ w = encode .decode ∨ w = encode .construct ∨
            (w = encode .next ∧ t.status.eos = false) then true else s.status.typeValid)
      else if w = encode .typeCheck ∨ (w = encode .construct ∧ errKindField t.errReg = 0x02) then false
      else s.status.typeValid := by
  rcases executeWord_outcome h with ⟨i, o, staged, u, rfl, hok, rfl⟩ | ⟨i, e, u, rfl, hfail, rfl⟩ | ⟨hno, rfl⟩
  · have hkept : staged.status.typeValid = s.status.typeValid := by rw [hok.status]; split <;> rfl
    simp [statusFinished, ← hok.setTv, hkept]
  · cases hc : e.clearTv <;> simp [statusFailed, hc, ← hfail.clearTv]
  · simp [statusFailed, hno]

/-- Settles O26: command words by their outcome, and of the other accesses the write of TYPE alone. -/
theorem typeValidChangesOnlyAsStated : Obligations.TypeValidChangesOnlyAsStated := by
  unfold Obligations.TypeValidChangesOnlyAsStated
  refine ⟨fun _ _ _ h => executeWord_typeValid h, fun s t o bits d rest hcmd hp h => ?_, fun s t rest hp h => ?_,
    fun s t a rest hp h ha => ?_⟩
  · rw [step_cons hp] at h
    by_cases htype : o = 0x1C ∧ bits = 32
    · rw [if_pos htype]
      obtain ⟨rfl, rfl⟩ := htype
      obtain rfl := Host.Outcome.next.inj h
      rfl
    · rw [if_neg htype]
      rcases performAction_cases h with ⟨_, heq, -⟩ | ⟨_, _, heq, -, -, ⟨r, hr, rfl⟩ | ⟨-, rfl⟩⟩ | rfl |
        ⟨_, _, heq, -⟩ | ⟨_, heq, -⟩ | ⟨_, heq, -⟩ | ⟨heq, -⟩
      · obtain ⟨⟨rfl⟩, rfl, -⟩ := HostAction.write.inj heq
        simp at hcmd
      · obtain ⟨⟨rfl⟩, rfl, -⟩ := HostAction.write.inj heq
        have hne : r ≠ .type := by
          rintro rfl
          exact htype ⟨regAt_some hr, rfl⟩
        rw [State.writeReg_status, if_neg hne]
      · rfl
      · rfl
      all_goals simp at heq
  · rw [step_cons hp] at h
    obtain rfl := Host.Outcome.next.inj h
    rfl
  · rw [step_cons hp] at h
    rcases performAction_cases h with ⟨_, rfl, -⟩ | ⟨_, _, rfl, -⟩ | rfl | ⟨_, _, -, -, rfl⟩ | ⟨_, -, rfl⟩ |
      ⟨_, -, -, rfl⟩ | ⟨rfl, -⟩
    · simp at ha
    · simp at ha
    · rfl
    · rfl
    · rfl
    · rfl
    · simp at ha

/-! ## The registers as the host sees them (10_state.md R23 to R51) -/

/-- Offsets from 0x4C on are reserved (10_state.md R51). -/
theorem regAt_reserved {o : Nat} (h : 0x4C ≤ o) : regAt o = none := by
  rcases hr : regAt o with _ | r
  · rfl
  · rw [regAt_some hr] at h
    cases r <;> simp [regOffset] at h

theorem State.readOffset_reserved (s : State) {o : Nat} (h : 0x4C ≤ o) : s.readOffset o = 0 := by
  simp [State.readOffset, regAt_reserved h]

theorem regAccessOk_iff {o bits : Nat} : regAccessOk o bits = true ↔ bits = 32 ∧ o % 4 = 0 ∧ o < 0x100 := by
  simp [regAccessOk, and_assoc]

/-- A permitted register read observes the register and moves on (10_state.md R24). -/
theorem step_readReg {s : State} {o : Nat} {rest : List HostAction} (hp : s.pending = .read (.reg o) 32 :: rest)
    (h4 : o % 4 = 0) (hlt : o < 0x100) :
    step s = .next { s with pending := rest, observed := ⟨.reg o, s.readOffset o⟩ :: s.observed } := by
  rw [step_cons hp]
  exact if_pos (regAccessOk_iff.2 ⟨rfl, h4, hlt⟩)

@[simp] theorem State.readOffset_regOffset (s : State) (r : Reg) : s.readOffset (regOffset r) = s.readReg r := by
  cases r <;> rfl

theorem State.readReg_errInfo0Lo_toNat (s : State) :
    (s.readReg .errInfo0Lo).toNat = s.errInfo0.toNat % 2 ^ 32 := by
  simp [State.readReg]

theorem State.readReg_errInfo0Hi_toNat (s : State) :
    (s.readReg .errInfo0Hi).toNat = s.errInfo0.toNat / 2 ^ 32 := by
  have := s.errInfo0.isLt
  rw [State.readReg, BitVec.extractLsb'_toNat, Nat.shiftRight_eq_div_pow]
  omega

/-- Settles O46: an offset of the map reads its register. -/
theorem registerReadsReturnTheMap : Obligations.RegisterReadsReturnTheMap := by
  unfold Obligations.RegisterReadsReturnTheMap
  intro s o rest hp h4 hlt
  have hat (r : Reg) (ho : o = regOffset r) : s.readOffset o = s.readReg r := by
    rw [ho, State.readOffset_regOffset]
  exact ⟨s.readOffset o, step_readReg hp h4 hlt, hat .id, hat .cfg, hat .cmd, hat .status, hat .base, hat .avail,
    hat .din, hat .type, hat .acc, hat .crcRes, hat .len, hat .span, hat .crcStored, hat .crcCalc, hat .dataOff,
    hat .err, fun ho => by rw [hat .errInfo0Lo ho, State.readReg_errInfo0Lo_toNat],
    fun ho => by rw [hat .errInfo0Hi ho, State.readReg_errInfo0Hi_toNat], hat .errInfo1, s.readOffset_reserved⟩

/-- A permitted register write runs `hostWriteReg` and moves on (10_state.md R25). -/
theorem step_writeReg {s : State} {o : Nat} {d : BitVec 64} {rest : List HostAction}
    (hp : s.pending = .write (.reg o) 32 d :: rest) (h4 : o % 4 = 0) (hlt : o < 0x100) :
    step s = hostWriteReg o (d.setWidth 32) { s with pending := rest } := by
  rw [step_cons hp]
  exact if_pos (regAccessOk_iff.2 ⟨rfl, h4, hlt⟩)

/-- What a write of any offset but CMD's changes (10_state.md R25, R51). -/
theorem hostWriteReg_eq {o : Nat} (h8 : o ≠ 0x08) (v : Word) (s : State) :
    hostWriteReg o v s = .next { s with
      base := if o = 0x10 then v else s.base
      avail := if o = 0x14 then v else s.avail
      din := if o = 0x18 then v.setWidth 8 else s.din
      typeCode := if o = 0x1C then v else s.typeCode
      acc := if o = 0x20 then v else s.acc
      status := if o = 0x1C then { s.status with typeValid := false } else s.status } := by
  unfold hostWriteReg
  rcases hr : regAt o with _ | r
  · have hne := regAt_none hr
    obtain ⟨h10, h14, h18, h1C, h20⟩ : o ≠ 0x10 ∧ o ≠ 0x14 ∧ o ≠ 0x18 ∧ o ≠ 0x1C ∧ o ≠ 0x20 :=
      ⟨(hne .base).symm, (hne .avail).symm, (hne .din).symm, (hne .type).symm, (hne .acc).symm⟩
    simp only [h10, h14, h18, h1C, h20, if_false]
  · obtain rfl := regAt_some hr
    cases r
    case cmd => exact absurd rfl h8
    all_goals rfl

/-- Settles O47, from `hostWriteReg_eq`. -/
theorem registerWritesFollowTheMap : Obligations.RegisterWritesFollowTheMap := by
  unfold Obligations.RegisterWritesFollowTheMap
  intro s o d rest hp h4 hlt
  refine ⟨fun h8 => ?_, ?_⟩
  · rw [step_writeReg hp h4 hlt, hostWriteReg_eq h8, BitVec.setWidth_setWidth_of_le _ (by decide)]
  · rintro rfl
    exact step_writeReg hp h4 hlt

/-- STATUS bit by bit, from SAFE_TO_COPY down to BUSY (10_state.md R29). -/
theorem statusWord_eq_concat (f : Status) (t : Word) : statusWord f t =
    ((((((((((((0#21).concat (safeToCopy t)).concat (reservedFlag t)).concat (isPublic t)).concat (critical t)).concat
      f.typeValid).concat f.crcMatch).concat f.eos).concat f.errSticky).concat f.err).concat f.ok).concat false) := rfl

/-- STATUS's reserved bits read 0 (10_state.md R29). -/
theorem statusWord_reserved (f : Status) (t : Word) : (statusWord f t).extractLsb' 11 21 = 0 := by
  apply BitVec.eq_of_getLsbD_eq
  intro i hi
  rw [BitVec.getLsbD_extractLsb', Nat.add_comm 11 i, statusWord_eq_concat]
  simp only [BitVec.getLsbD_concat_succ]
  simp

/-- Settles O27, reading the bits off `statusWord_eq_concat`. -/
theorem statusReadsItsFields : Obligations.StatusReadsItsFields := by
  unfold Obligations.StatusReadsItsFields
  intro s
  refine ⟨?_, ?_, ?_, ?_, ?_, ?_, ?_, ?_, ?_, ?_, ?_, statusWord_reserved s.status s.typeCode⟩ <;>
    rw [State.readReg, statusWord_eq_concat]
  all_goals simp only [BitVec.getLsbD_concat_succ, BitVec.getLsbD_concat_zero]
  case refine_8 | refine_9 | refine_10 | refine_11 =>
    simp [critical, isPublic, reservedFlag, safeToCopy]

/-- Settles O52, offset by offset. -/
theorem powerOnReadsTheResetValues : Obligations.PowerOnReadsTheResetValues := by
  unfold Obligations.PowerOnReadsTheResetValues
  intro p
  have hstatus : (State.powerOn p).readOffset 0x0C = 0x180 := by
    change statusWord ⟨false, false, false, false, false, false⟩ 0 = 0x180
    decide
  have hcrcRes : (State.powerOn p).readOffset 0x24 = 0 := BitVec.xor_self
  have hinfo0Hi : (State.powerOn p).readOffset 0x44 = 0 := by
    change (0#64).extractLsb' 32 32 = 0
    decide
  refine ⟨⟨rfl, rfl, hstatus, rfl⟩, ?_, fun o ho _ _ => State.readOffset_reserved _ ho, fun _ => rfl, rfl⟩
  simp only [List.forall_mem_cons]
  exact ⟨rfl, rfl, rfl, rfl, rfl, hcrcRes, rfl, rfl, rfl, rfl, rfl, rfl, rfl, hinfo0Hi, rfl, by simp⟩

/-- Settles O45: be32 takes TypeBytes back to TYPE, so equal bytes come from equal values. -/
theorem typePacksItsBytesBigEndian : Obligations.TypePacksItsBytesBigEndian := by
  unfold Obligations.TypePacksItsBytesBigEndian
  have hback (t : Word) : be32 (typeBytes t) = t.toNat := be32_bytesBe32 t.isLt
  refine ⟨fun t => ⟨typeBytes_eq t, hback t⟩, fun a b => ⟨fun h => ?_, congrArg typeBytes⟩⟩
  apply BitVec.eq_of_toNat_eq
  rw [← hback a, h, hback b]

/-! ## CRC_RES and NEXT's window (10_state.md R22, R42) -/

/-- CRC_BUF over a written window folds its bytes into ACC (41_crc.md R127). -/
theorem exec_crcBuf_of_windowIs {s : State} {bs : List Byte} (h : s.windowIs bs) :
    exec .crcBuf s = .next (State.finish {} { s with acc := crcFold s.acc bs }) := by
  obtain ⟨hfits, hlen, hholds⟩ := h
  rcases crcBufResult_cases s with ⟨hno, -⟩ | ⟨-, he⟩
  · exact absurd hfits hno
  · rw [← hlen, State.memRead_of_holds hholds, State.unwritten_of_holds hholds] at he
    rw [exec_eq_complete, cmdResult, he, State.complete_ok, State.noteUnwritten_false]

/-- Settles O37: ACC starts at CRC_INIT, is folded over the window and is read through CRC_XOROUT, as in Checksum. -/
theorem crcResReadsTheChecksum : Obligations.CrcResReadsTheChecksum := by
  unfold Obligations.CrcResReadsTheChecksum
  refine ⟨fun s => rfl, fun s bs h => ?_, fun p => BitVec.xor_self, rfl⟩
  exact ⟨_, _, exec_eq_complete .crcInit s, exec_crcBuf_of_windowIs (by exact h), rfl⟩

/-- Settles O43: BASE advances by the span that AVAIL loses, and the span is at most AVAIL. -/
theorem nextKeepsTheWindowEnd : Obligations.NextKeepsTheWindowEnd := by
  unfold Obligations.NextKeepsTheWindowEnd
  intro s t h
  rcases exec_cases h with ⟨e, -, rfl⟩ | ⟨o, staged, hr, rfl⟩
  · rfl
  change staged.base.toNat + staged.avail.toNat = _
  rcases nextResult_cases s with ⟨_, he⟩ | ⟨_, _, he⟩ | ⟨_, _, _, _, _, he⟩ | ⟨_, _, _, _, _, _, _, _, _, he⟩ |
    ⟨_, n, sp, _, f, hfits, _, hc, hd, he⟩ <;> rw [cmdResult, he] at hr <;> simp at hr
  · rw [hr.2]
  · obtain ⟨-, rfl⟩ := hr
    obtain ⟨-, -, hle⟩ := sliceCore_ok hc
    obtain ⟨-, hspan, -⟩ := decodeCore_ok hd
    have := s.params.ibufSize.isLt
    have : s.base.toNat + s.avail.toNat < 2 ^ 32 := Nat.lt_of_le_of_lt hfits this
    simp only [BitVec.toNat_ofNat]
    omega

end Sys2Proof.Machine

/-! IBUF, its window and its written-marks (20_memory.md): the storage invariant, what each command reads, and the
host's accesses. -/

namespace Sys2Proof.Machine

/-! ## The storage invariant (20_memory.md R60, R61, 10_state.md R44) -/

/-- What the success of a command stages of the storage: no IBUF byte and no fault, and SPAN and LEN only together. -/
structure StagedStorage (s staged : State) : Prop where
  params : staged.params = s.params
  ibuf : staged.ibuf = s.ibuf
  faulted : staged.faulted = s.faulted
  span : staged.span.toNat = 12 + staged.len.toNat ∨ (staged.span = s.span ∧ staged.len = s.len)

/-- SPAN and LEN as registers, when the exact span fits 32 bits (10_state.md R43, R44). -/
theorem span_toNat_eq_add_len {n : Nat} (h : 12 + n < 2 ^ 32) :
    (BitVec.ofNat 32 (12 + n)).toNat = 12 + (BitVec.ofNat 32 n).toNat := by
  rw [BitVec.toNat_ofNat, BitVec.toNat_ofNat, Nat.mod_eq_of_lt h, Nat.mod_eq_of_lt (by omega)]

/-- A decoded record is below the length limit, so its span does not wrap (42_frame.md R142). -/
theorem stagedStorage_withRecord {s : State} {b a : Nat} {u : Bool} {f : FrameRecord}
    (h : decodeCore s b a = ⟨u, .ok f⟩) : StagedStorage s (s.withRecord b f) := by
  obtain ⟨-, -, hspan, hlen, -⟩ := decodeCore_ok h
  refine ⟨rfl, rfl, rfl, .inl ?_⟩
  rw [State.withRecord_span, State.withRecord_len, hspan]
  exact span_toNat_eq_add_len (by omega)

theorem stagedStorage_of_result {i : Instr} {s staged : State} {o : FinishOpts}
    (h : (cmdResult i s).result = .ok (o, staged)) : StagedStorage s staged := by
  have ha : s.avail.toNat < 2 ^ 32 := s.avail.isLt
  cases i <;> simp only [cmdResult] at h
  case nop | clear | crcInit | crcByte =>
    obtain ⟨-, rfl⟩ := Prod.mk.inj (Except.ok.inj h)
    exact ⟨rfl, rfl, rfl, .inr ⟨rfl, rfl⟩⟩
  case typeCheck =>
    rcases typeCheckResult_cases s with ⟨_, _, _, he⟩ | ⟨_, he⟩ <;> rw [he] at h <;> simp at h
    obtain ⟨-, rfl⟩ := h
    exact ⟨rfl, rfl, rfl, .inr ⟨rfl, rfl⟩⟩
  case typeParse =>
    rcases typeParseResult_cases s with ⟨_, he⟩ | ⟨_, _, he⟩ | ⟨_, _, _, _, _, he⟩ | ⟨_, _, _, he⟩ <;>
      rw [he] at h <;> simp at h
    obtain ⟨-, rfl⟩ := h
    exact ⟨rfl, rfl, rfl, .inr ⟨rfl, rfl⟩⟩
  case crcBuf =>
    rcases crcBufResult_cases s with ⟨_, he⟩ | ⟨_, he⟩ <;> rw [he] at h <;> simp at h
    obtain ⟨-, rfl⟩ := h
    exact ⟨rfl, rfl, rfl, .inr ⟨rfl, rfl⟩⟩
  case slice =>
    rcases sliceResult_cases s with ⟨_, he⟩ | ⟨_, _, _, _, he⟩ | ⟨_, n, sp, _, hc, he⟩ <;> rw [he] at h <;> simp at h
    obtain ⟨-, rfl⟩ := h
    obtain ⟨-, rfl, hle⟩ := sliceCore_ok hc
    exact ⟨rfl, rfl, rfl, .inl (span_toNat_eq_add_len (by omega))⟩
  case decode =>
    rcases decodeResult_cases s with ⟨_, he⟩ | ⟨_, _, _, _, he⟩ | ⟨_, f, _, hd, he⟩ <;> rw [he] at h <;> simp at h
    obtain ⟨-, rfl⟩ := h
    exact stagedStorage_withRecord hd
  case next =>
    rcases nextResult_cases s with ⟨_, he⟩ | ⟨_, _, he⟩ | ⟨_, _, _, _, _, he⟩ | ⟨_, _, _, _, _, _, _, _, _, he⟩ |
      ⟨_, _, _, _, f, _, _, _, hd, he⟩ <;> rw [he] at h <;> simp at h
    · obtain ⟨-, rfl⟩ := h
      exact ⟨rfl, rfl, rfl, .inr ⟨rfl, rfl⟩⟩
    · obtain ⟨-, rfl⟩ := h
      exact { stagedStorage_withRecord hd with }
  case construct =>
    rcases constructResult_cases s with ⟨_, he⟩ | ⟨_, _, _, _, he⟩ | ⟨_, _, _, he⟩ | ⟨_, _, hlt, he⟩ <;>
      rw [he] at h <;> simp at h
    obtain ⟨-, rfl⟩ := h
    exact ⟨rfl, rfl, rfl, .inl (Nat.mod_eq_of_lt (show 12 + s.avail.toNat < 2 ^ 32 by omega))⟩

theorem StagedStorage.keeps_storageInv {s staged : State} (h : StagedStorage s staged) (hs : s.StorageInv) :
    staged.StorageInv where
  ibufWf := by rw [h.ibuf]; exact hs.ibufWf
  ibufBound := by rw [h.ibuf, h.params]; exact hs.ibufBound
  span := by
    rcases h.span with hspan | ⟨hspan, hlen⟩
    · exact .inl hspan
    · rw [hspan, hlen]
      exact hs.span

/-- A failure leaves the storage alone, and a success commits what it staged of it (60_exceptions.md R202, R203). -/
theorem exec_keeps_storageInv {i : Instr} {s t : State} (hs : s.StorageInv) (h : exec i s = .next t) :
    t.StorageInv := by
  rcases exec_cases h with ⟨e, -, rfl⟩ | ⟨o, staged, hr, rfl⟩
  · exact { hs with }
  · exact { (stagedStorage_of_result hr).keeps_storageInv hs with }

theorem executeWord_keeps_storageInv {w : Word} {s t : State} (hs : s.StorageInv) (h : executeWord w s = .next t) :
    t.StorageInv := by
  rcases executeWord_cases h with ⟨i, -, hx⟩ | ⟨r, -, rfl⟩
  · exact exec_keeps_storageInv hs hx
  · exact { hs with }

/-- The host's byte write keeps the canonical form, and its offset is below P_IBUF_SIZE (20_memory.md R61, R66). -/
theorem State.writeIbuf_keeps_storageInv {s : State} {k : Nat} (hs : s.StorageInv)
    (hk : k < s.params.ibufSize.toNat) (b : Byte) : State.StorageInv { s with ibuf := s.ibuf.write k b } where
  ibufWf := Memory.wf_write hs.ibufWf k b
  ibufBound := fun c hc => by
    rcases Memory.mem_write hc with rfl | hc
    · exact hk
    · exact hs.ibufBound c hc
  span := hs.span

/-- After reset nothing is written, and SPAN and LEN are 0 (10_state.md R57). -/
theorem hostReset_storageInv (s : State) : (hostReset s).StorageInv :=
  ⟨List.Pairwise.nil, (fun _ hc => nomatch hc), .inr ⟨rfl, rfl⟩⟩

theorem State.writeReg_keeps_storageInv {s : State} (hs : s.StorageInv) (r : Reg) (v : Word) :
    (s.writeReg v r).StorageInv := by
  cases r <;> exact { hs with }

/-- Settles O55: IBUF changes by host writes below P_IBUF_SIZE and by reset, and SPAN and LEN by commands and by
reset. -/
theorem stepKeepsStorageCanonical : Obligations.StepKeepsStorageCanonical := by
  unfold Obligations.StepKeepsStorageCanonical
  intro s t hs h
  rcases step_cases h with ⟨-, rfl⟩ | ⟨a, rest, -, ha⟩
  · exact hs
  have hq : State.StorageInv { s with pending := rest } := { hs with }
  rcases performAction_cases ha with ⟨d, -, hx⟩ | ⟨o, d, -, -, -, ⟨r, -, rfl⟩ | ⟨-, rfl⟩⟩ | rfl | ⟨k, d, -, hk, rfl⟩ |
    ⟨o, -, rfl⟩ | ⟨k, -, -, rfl⟩ | ⟨-, rfl⟩
  · exact executeWord_keeps_storageInv hq hx
  · exact State.writeReg_keeps_storageInv hq r _
  · exact hq
  · exact { hq with }
  · exact State.writeIbuf_keeps_storageInv hq hk _
  · exact { hq with }
  · exact { hq with }
  · exact hostReset_storageInv _

/-! ## The window check (20_memory.md R63) -/

/-- A command that reads IBUF fails on a window that does not fit before it reads or checks anything else. -/
theorem cmdResult_of_not_fits {i : Instr} {s : State} (hi : readsIbuf i = true) (hf : ¬ s.windowFits) :
    cmdResult i s = ⟨false, .error { kind := .badWindow, info0 := s.base.toNat, info1 := s.avail.toNat }⟩ := by
  have hw := State.windowCheck_of_not_fits hf
  cases i with
  | nop | clear | typeCheck | crcInit | crcByte => exact nomatch hi
  | typeParse => simp only [cmdResult, typeParseResult, hw]
  | crcBuf => simp only [cmdResult, crcBufResult, hw]
  | slice => simp only [cmdResult, sliceResult, hw]
  | decode => simp only [cmdResult, decodeResult, hw]
  | next => simp only [cmdResult, nextResult, hw]
  | construct => simp only [cmdResult, constructResult, hw]

/-- BAD_WINDOW recorded, ERR written as a number (60_exceptions.md R201, R202). -/
theorem State.raise_badWindow (opc : Byte) (s : State) (info0 info1 : Nat) :
    State.raise opc { kind := .badWindow, info0 := info0, info1 := info1 } s =
      s.afterError (0x08 + 2 ^ 16 * opc.toNat) info0 info1 := by
  have herr : errWord opc { kind := .badWindow, info0 := info0, info1 := info1 } =
      BitVec.ofNat 32 (0x08 + 2 ^ 16 * opc.toNat) := packErr_eq_sum opc 0x08 false false 0
  simp only [State.raise, State.afterError, herr]
  rfl

@[simp] theorem kindCode_eq_eight_iff (k : ErrKind) : kindCode k = 8#8 ↔ k = .badWindow := by
  cases k <;> decide

/-- BAD_WINDOW is the failure of the window check alone. -/
theorem kind_ne_badWindow_of_result {i : Instr} {s : State} {e : CmdError} (h : (cmdResult i s).result = .error e)
    (hi : readsIbuf i = false ∨ s.windowFits) : e.kind ≠ .badWindow := by
  cases i <;> simp only [cmdResult] at h <;> simp only [readsIbuf, Bool.true_eq_false, false_or] at hi
  case nop | clear | crcInit | crcByte => simp at h
  case typeCheck =>
    rcases typeCheckResult_cases s with ⟨_, _, _, he⟩ | ⟨_, he⟩ <;> rw [he] at h <;> simp at h
    simp [← h]
  case typeParse =>
    rcases typeParseResult_cases s with ⟨hf, -⟩ | ⟨_, _, he⟩ | ⟨_, _, _, _, _, he⟩ | ⟨_, _, _, he⟩
    · exact absurd hi hf
    · rw [he] at h
      obtain rfl := Except.error.inj h
      nofun
    · rw [he] at h
      obtain rfl := Except.error.inj h
      nofun
    · simp [he] at h
  case crcBuf =>
    rcases crcBufResult_cases s with ⟨hf, -⟩ | ⟨_, he⟩
    · exact absurd hi hf
    · simp [he] at h
  case slice =>
    rcases sliceResult_cases s with ⟨hf, -⟩ | ⟨_, _, _, hc, he⟩ | ⟨_, _, _, _, _, he⟩
    · exact absurd hi hf
    · rw [he] at h
      obtain rfl := Except.error.inj h
      obtain ⟨-, -, -, -, hk | hk, -⟩ := sliceCore_error hc <;> simp [hk]
    · simp [he] at h
  case decode =>
    rcases decodeResult_cases s with ⟨hf, -⟩ | ⟨_, _, _, hd, he⟩ | ⟨_, _, _, _, he⟩
    · exact absurd hi hf
    · rw [he] at h
      obtain rfl := Except.error.inj h
      obtain ⟨-, -, -, -, ⟨hk, -⟩, -⟩ := decodeCore_error hd
      exact hk
    · simp [he] at h
  case next =>
    rcases nextResult_cases s with ⟨hf, -⟩ | ⟨_, _, he⟩ | ⟨_, _, _, _, hc, he⟩ | ⟨_, _, _, _, _, _, _, _, hd, he⟩ |
      ⟨_, _, _, _, _, _, _, _, _, he⟩
    · exact absurd hi hf
    · simp [he] at h
    · rw [he] at h
      obtain rfl := Except.error.inj h
      obtain ⟨-, -, -, -, hk | hk, -⟩ := sliceCore_error hc <;> simp [hk]
    · rw [he] at h
      obtain rfl := Except.error.inj h
      obtain ⟨-, -, -, -, ⟨hk, -⟩, -⟩ := decodeCore_error hd
      exact hk
    · simp [he] at h
  case construct =>
    rcases constructResult_cases s with ⟨hf, -⟩ | ⟨_, _, _, _, he⟩ | ⟨_, _, _, he⟩ | ⟨_, _, _, he⟩
    · exact absurd hi hf
    · rw [he] at h
      obtain rfl := Except.error.inj h
      nofun
    · rw [he] at h
      obtain rfl := Except.error.inj h
      nofun
    · simp [he] at h

/-- Settles O29: the window check answers first, and BAD_WINDOW is its error alone. -/
theorem windowCheckComesFirst : Obligations.WindowCheckComesFirst := by
  unfold Obligations.WindowCheckComesFirst
  refine ⟨fun i s hi hf => ?_, fun i s t h herr hi hk => ?_⟩
  · rw [exec_eq_complete, cmdResult_of_not_fits hi (Nat.not_le_of_lt hf), State.complete_error,
      State.noteUnwritten_false, State.raise_badWindow]
  · rcases exec_cases h with ⟨e, hr, rfl⟩ | ⟨o, staged, -, rfl⟩
    · have hkind : kindCode e.kind = 0x08 := by simpa using hk
      exact kind_ne_badWindow_of_result hr hi ((kindCode_eq_eight_iff _).1 hkind)
    · exact nomatch herr

/-! ## Which commands read an unwritten byte (20_memory.md R62, 60_exceptions.md R219) -/

/-- The fault flag after a command is the one before it or the reading of an unwritten byte. -/
theorem exec_faulted {i : Instr} {s t : State} (h : exec i s = .next t) :
    t.faulted = ((cmdResult i s).unwritten || s.faulted) := by
  rcases exec_cases h with ⟨e, -, rfl⟩ | ⟨o, staged, hr, rfl⟩
  · rfl
  · rw [State.noteUnwritten_faulted, State.finish_faulted, (stagedStorage_of_result hr).faulted]

theorem exec_faulted_iff {i : Instr} {s t : State} {p : Prop} (h : exec i s = .next t)
    (hp : (cmdResult i s).unwritten = true ↔ p) : t.faulted = true ↔ s.faulted = true ∨ p := by
  rw [exec_faulted h, Bool.or_eq_true, hp, or_comm]

/-- A command that reads no IBUF reads no unwritten byte. -/
theorem cmdResult_unwritten_of_not_readsIbuf {i : Instr} {s : State} (hi : readsIbuf i = false) :
    (cmdResult i s).unwritten = false := by
  cases i with
  | nop | clear | crcInit | crcByte => rfl
  | typeCheck =>
    rcases typeCheckResult_cases s with ⟨_, _, _, he⟩ | ⟨_, he⟩ <;> rw [cmdResult, he]
  | typeParse | crcBuf | slice | decode | next | construct => exact nomatch hi

theorem typeParseResult_unwritten_iff (s : State) :
    (typeParseResult s).unwritten = true ↔ s.windowFits ∧ s.avail = 4 ∧ s.someUnwritten s.base.toNat 4 := by
  have h4 : s.avail = 4 ↔ s.avail.toNat = 4 := BitVec.toNat_inj.symm
  rw [h4, ← unwritten_iff]
  rcases typeParseResult_cases s with ⟨hf, he⟩ | ⟨_, hlen, he⟩ | ⟨_, _, hf, hlen, _, he⟩ | ⟨hf, hlen, _, he⟩ <;> rw [he]
  · simp [hf]
  · simp [hlen]
  · rw [and_iff_right hf, and_iff_right hlen]
  · rw [and_iff_right hf, and_iff_right hlen]

theorem crcBufResult_unwritten_iff (s : State) :
    (crcBufResult s).unwritten = true ↔ s.windowFits ∧ s.someUnwritten s.base.toNat s.avail.toNat := by
  rw [← unwritten_iff]
  rcases crcBufResult_cases s with ⟨hf, he⟩ | ⟨hf, he⟩ <;> rw [he]
  · simp [hf]
  · simp [hf]

theorem constructResult_unwritten_iff (s : State) :
    (constructResult s).unwritten = true ↔ s.windowFits ∧ (∀ i < 4, Letter (typeByte s.typeCode i)) ∧
      s.avail.toNat < 2 ^ 31 ∧ s.someUnwritten s.base.toNat s.avail.toNat := by
  rw [← typeScan_typeBytes_none_iff, ← unwritten_iff]
  rcases constructResult_cases s with ⟨hf, he⟩ | ⟨_, _, _, hscan, he⟩ | ⟨_, _, hlen, he⟩ | ⟨hf, hscan, hlen, he⟩ <;>
    rw [he]
  · simp [hf]
  · simp [hscan]
  · simp only [Bool.false_eq_true, false_iff]
    omega
  · rw [and_iff_right hf, and_iff_right hscan, and_iff_right hlen]

/-- SliceCore reads the length field when the window holds a frame's 12 bytes (42_frame.md R143). -/
theorem sliceCore_unwritten_iff (s : State) (b a : Nat) :
    (sliceCore s b a).unwritten = true ↔ 12 ≤ a ∧ s.someUnwritten b 4 := by
  rw [← unwritten_iff]
  rcases sliceCore_cases s b a with ⟨h, he⟩ | ⟨_, _, h, _, he⟩ | ⟨_, _, h, he⟩ <;> rw [he]
  · simp [Nat.not_le_of_lt h]
  · simp [h]
  · simp [show 12 ≤ a by omega]

theorem sliceResult_unwritten_iff (s : State) :
    (sliceResult s).unwritten = true ↔ s.windowFits ∧ 12 ≤ s.avail.toNat ∧ s.someUnwritten s.base.toNat 4 := by
  rw [← sliceCore_unwritten_iff]
  rcases sliceResult_cases s with ⟨hf, he⟩ | ⟨_, _, hf, hc, he⟩ | ⟨_, _, _, hf, hc, he⟩ <;> rw [he]
  · simp [hf]
  · simp [hf, hc]
  · simp [hf, hc]

/-- A written length field holds one length, the one MemRead reads there: what is asked of some held length is asked of
that one (42_frame.md R140). -/
theorem someUnwritten_or_heldLength_iff {s : State} {b : Nat} {p : Nat → Prop} :
    (s.someUnwritten b 4 ∨ ∃ n < 2 ^ 31, s.holds b (bytesBe32 n) ∧ p n) ↔
      s.someUnwritten b 4 ∨ (be32 (s.memRead b 4) < 2 ^ 31 ∧ p (be32 (s.memRead b 4))) := by
  by_cases hu : s.someUnwritten b 4
  · simp only [hu, true_or]
  simp only [hu, false_or]
  constructor
  · rintro ⟨n, hn, hh, hp⟩
    rw [(lengthField_of_holds (by omega) hh).1]
    exact ⟨hn, hp⟩
  · rintro ⟨hn, hp⟩
    have hw : s.unwritten b 4 = false := by simpa [← unwritten_iff] using hu
    have hh := State.holds_memRead hw
    rw [← bytesBe32_be32 (s := s.memRead b 4) (by simp)] at hh
    exact ⟨_, hn, hh, hp⟩

/-- The reads of DecodeCore's fields are the read of the whole frame (42_frame.md R144). -/
theorem State.unwritten_frame (s : State) (b n : Nat) :
    (s.unwritten b 4 || s.unwritten (b + 4) 4 || s.unwritten (b + 8) n || s.unwritten (b + 8 + n) 4) =
      s.unwritten b (12 + n) := by
  rw [show 12 + n = 4 + 4 + n + 4 by omega, State.unwritten_add, State.unwritten_add, State.unwritten_add,
    ← Nat.add_assoc b (4 + 4) n]

theorem State.unwritten_frame_of_lengthField (s : State) (b n : Nat) (h : s.unwritten b 4 = true) :
    s.unwritten b (12 + n) = true := by
  rw [← s.unwritten_frame, h, Bool.true_or, Bool.true_or, Bool.true_or]

/-- DecodeCore reads the length field when the window holds a frame's 12 bytes, and the whole window when it is exactly
one frame below the limit (42_frame.md R144). -/
theorem decodeCore_unwritten_iff (s : State) (b a : Nat) :
    (decodeCore s b a).unwritten = true ↔ 12 ≤ a ∧ (s.someUnwritten b 4 ∨ (be32 (s.memRead b 4) < 2 ^ 31 ∧
      12 + be32 (s.memRead b 4) = a ∧ s.someUnwritten b (12 + be32 (s.memRead b 4)))) := by
  simp only [← unwritten_iff]
  rcases decodeCore_cases s b a with ⟨h, he⟩ | ⟨n, hn, h, hlim, he⟩ | ⟨n, hn, h, _, hlt, he⟩ | ⟨n, hn, _, hlt, he⟩ |
    ⟨n, hn, hlim, rfl, he⟩ <;> rw [he]
  · simp [Nat.not_le_of_lt h]
  · rw [← hn]
    simp [h, Nat.not_lt_of_le hlim, -Nat.reducePow]
  · rw [← hn]
    simp [h, Nat.ne_of_gt hlt]
  · rw [← hn]
    simp [show 12 ≤ a by omega, Nat.ne_of_lt hlt]
  · rw [State.unwritten_frame, ← hn]
    simpa [hlim, -Nat.reducePow] using s.unwritten_frame_of_lengthField b n

theorem decodeResult_unwritten_iff (s : State) :
    (decodeResult s).unwritten = true ↔ s.windowFits ∧ 12 ≤ s.avail.toNat ∧ (s.someUnwritten s.base.toNat 4 ∨
      ∃ n < 2 ^ 31, s.holds s.base.toNat (bytesBe32 n) ∧ 12 + n = s.avail.toNat ∧
        s.someUnwritten s.base.toNat (12 + n)) := by
  rw [someUnwritten_or_heldLength_iff, ← decodeCore_unwritten_iff]
  rcases decodeResult_cases s with ⟨hf, he⟩ | ⟨_, _, hf, hd, he⟩ | ⟨_, _, hf, hd, he⟩ <;> rw [he]
  · simp [hf]
  · simp [hf, hd]
  · simp [hf, hd]

/-- A window SliceCore rejects holds no frame: it reads the length field at most (42_frame.md R143). -/
theorem sliceCore_error_unwritten_iff {s : State} {b a : Nat} {u : Bool} {e : CmdError}
    (h : sliceCore s b a = ⟨u, .error e⟩) :
    u = true ↔ 12 ≤ a ∧ (s.someUnwritten b 4 ∨ (be32 (s.memRead b 4) < 2 ^ 31 ∧
      12 + be32 (s.memRead b 4) ≤ a ∧ s.someUnwritten b (12 + be32 (s.memRead b 4)))) := by
  have hu := sliceCore_unwritten_iff s b a
  rw [h] at hu
  rcases sliceCore_cases s b a with ⟨hlt, -⟩ | ⟨n, hn, -, hlt, -⟩ | ⟨_, _, _, he⟩
  · simp only [hu, Nat.not_le_of_lt hlt, false_and]
  · simp only [hu, ← hn, Nat.not_le_of_lt hlt, false_and, and_false, or_false]
  · simp [h] at he

/-- A window SliceCore accepts is read again by DecodeCore, on the sliced span (42_frame.md R147). -/
theorem sliceCore_ok_unwritten_iff {s : State} {b a n sp : Nat} {u : Bool} (h : sliceCore s b a = ⟨u, .ok (n, sp)⟩) :
    (u || (decodeCore s b sp).unwritten) = true ↔ 12 ≤ a ∧ (s.someUnwritten b 4 ∨ (be32 (s.memRead b 4) < 2 ^ 31 ∧
      12 + be32 (s.memRead b 4) ≤ a ∧ s.someUnwritten b (12 + be32 (s.memRead b 4)))) := by
  have hu := sliceCore_unwritten_iff s b a
  rw [h] at hu
  obtain ⟨hn, rfl, hle⟩ := sliceCore_ok h
  have ha : 12 ≤ a := by omega
  rw [Bool.or_eq_true, hu, decodeCore_unwritten_iff, ← hn]
  simp only [ha, hle, Nat.le_add_right, true_and, or_self_left]

/-- NEXT reads what SLICE reads of its window, and then what DECODE reads of the sliced span (42_frame.md R147). -/
theorem nextResult_unwritten_iff (s : State) :
    (nextResult s).unwritten = true ↔ s.windowFits ∧ 12 ≤ s.avail.toNat ∧ (s.someUnwritten s.base.toNat 4 ∨
      ∃ n < 2 ^ 31, s.holds s.base.toNat (bytesBe32 n) ∧ 12 + n ≤ s.avail.toNat ∧
        s.someUnwritten s.base.toNat (12 + n)) := by
  rw [someUnwritten_or_heldLength_iff]
  rcases nextResult_cases s with ⟨hf, he⟩ | ⟨_, h0, he⟩ | ⟨_, _, hf, _, hc, he⟩ | ⟨_, _, _, _, _, hf, _, hc, hd, he⟩ |
    ⟨_, _, _, _, _, hf, _, hc, hd, he⟩ <;> rw [he]
  · simp [hf]
  · simp [h0]
  · rw [and_iff_right hf, ← sliceCore_error_unwritten_iff hc]
  · rw [and_iff_right hf, ← sliceCore_ok_unwritten_iff hc, hd]
  · rw [and_iff_right hf, ← sliceCore_ok_unwritten_iff hc, hd]

/-- Settles O30, from what each command's result says of its reads. -/
theorem unwrittenReadIsAModelFault : Obligations.UnwrittenReadIsAModelFault := by
  unfold Obligations.UnwrittenReadIsAModelFault
  refine ⟨fun s t h => exec_faulted_iff h (typeParseResult_unwritten_iff s),
    fun s t h => exec_faulted_iff h (crcBufResult_unwritten_iff s),
    fun s t h => exec_faulted_iff h (sliceResult_unwritten_iff s),
    fun s t h => exec_faulted_iff h (constructResult_unwritten_iff s),
    fun s t h => exec_faulted_iff h (decodeResult_unwritten_iff s),
    fun s t h => exec_faulted_iff h (nextResult_unwritten_iff s), fun i s t hi h => ?_⟩
  rw [exec_faulted h, cmdResult_unwritten_of_not_readsIbuf hi, Bool.false_or]

/-! ## What a command's outcome depends on (20_memory.md R63, 60_exceptions.md R208) -/

/-- Two states read the same over IBUF[b..b+n): the same bytes and marks, and the same free values (log 5). -/
structure SameBytes (s t : State) (b n : Nat) : Prop where
  draws : t.draws = s.draws
  read : ∀ j, b ≤ j → j < b + n → t.ibuf.read j = s.ibuf.read j

theorem SameBytes.sub {s t : State} {b n k m : Nat} (h : SameBytes s t b n) (h1 : b ≤ k) (h2 : k + m ≤ b + n) :
    SameBytes s t k m :=
  ⟨h.draws, fun j hj hlt => h.read j (by omega) (by omega)⟩

theorem SameBytes.memRead_eq {s t : State} {b n : Nat} (h : SameBytes s t b n) : t.memRead b n = s.memRead b n := by
  unfold State.memRead
  refine List.map_congr_left fun j hj => ?_
  obtain ⟨hb, hn⟩ := List.mem_range'_1.1 hj
  rw [State.byteAt, State.byteAt, h.read j hb hn, h.draws]

theorem SameBytes.unwritten_eq {s t : State} {b n : Nat} (h : SameBytes s t b n) :
    t.unwritten b n = s.unwritten b n := by
  rw [Bool.eq_iff_iff, unwritten_iff, unwritten_iff]
  refine exists_congr fun j => and_congr_right fun hj => ?_
  obtain ⟨hb, hn⟩ := List.mem_range'_1.1 hj
  rw [h.read j hb hn]

/-- A window of at least a frame's 12 bytes holds a length field (42_frame.md R140). -/
theorem SameBytes.lengthField {s t : State} {b a : Nat} (h : SameBytes s t b a) (ha : 12 ≤ a) : SameBytes s t b 4 :=
  h.sub (Nat.le_refl b) (by omega)

/-- SliceCore reads the length field at most, and only inside its window. -/
theorem SameBytes.sliceCore_eq {s t : State} {b a : Nat} (h : SameBytes s t b a) :
    sliceCore t b a = sliceCore s b a := by
  unfold sliceCore
  split
  next => rfl
  next hle =>
    have hlen := h.lengthField (Nat.le_of_not_lt hle)
    rw [hlen.memRead_eq, hlen.unwritten_eq]

/-- DecodeCore's last two checks read the frame they are given only. -/
theorem SameBytes.decodeBody_eq {s t : State} {b n : Nat} (h : SameBytes s t b (12 + n)) :
    decodeBody t b n = decodeBody s b n := by
  unfold decodeBody
  rw [(h.sub (k := b + 4) (m := 4) (by omega) (by omega)).memRead_eq,
    (h.sub (k := b + 8) (m := n) (by omega) (by omega)).memRead_eq,
    (h.sub (k := b + 8 + n) (m := 4) (by omega) (by omega)).memRead_eq]

/-- DecodeCore reads inside its window only: the length field, then the whole window when it is one frame. -/
theorem SameBytes.decodeCore_eq {s t : State} {b a : Nat} (h : SameBytes s t b a) :
    decodeCore t b a = decodeCore s b a := by
  unfold decodeCore
  split
  next => rfl
  next hle =>
    have hlen := h.lengthField (Nat.le_of_not_lt hle)
    rw [hlen.memRead_eq]
    dsimp only
    split_ifs with hlim hbig hsmall
    · rw [hlen.unwritten_eq]
    · rw [hlen.unwritten_eq]
    · rw [hlen.unwritten_eq]
    · have hspan : a = 12 + be32 (s.memRead b 4) := by
        simp only [spanOf, Config.frameOverhead] at hbig hsmall
        omega
      rw [hspan] at h
      rw [State.unwritten_frame, State.unwritten_frame, h.unwritten_eq, h.decodeBody_eq]

/-- `s` with other IBUF contents and another of the model's own queue and observed reads (log 2, log 3). -/
def State.withHostSide (m : Memory) (q : List HostAction) (o : List Observation) (s : State) : State :=
  { s with ibuf := m, pending := q, observed := o }

/-- A command's result with `f` applied to its staged writes. -/
def CmdResult.mapStaged (f : State → State) (r : CmdResult) : CmdResult :=
  { r with result := r.result.map (Prod.map id f) }

section OtherHostSide

variable {m : Memory} {q : List HostAction} {o : List Observation}

@[simp] theorem State.withHostSide_base (s : State) : (s.withHostSide m q o).base = s.base := rfl
@[simp] theorem State.withHostSide_avail (s : State) : (s.withHostSide m q o).avail = s.avail := rfl
@[simp] theorem State.withHostSide_typeCode (s : State) : (s.withHostSide m q o).typeCode = s.typeCode := rfl
@[simp] theorem State.windowCheck_withHostSide (s : State) : (s.withHostSide m q o).windowCheck = s.windowCheck := rfl

/-- The end of a command reads no IBUF byte and nothing of the model's own. -/
theorem State.complete_withHostSide (opc : Byte) (s : State) (r : CmdResult) :
    State.complete opc (s.withHostSide m q o) (r.mapStaged (State.withHostSide m q o)) =
      (State.complete opc s r).withHostSide m q o := by
  rcases r with ⟨u, e | ⟨opts, staged⟩⟩ <;> rfl

theorem typeCheckResult_withHostSide (s : State) :
    typeCheckResult (s.withHostSide m q o) = (typeCheckResult s).mapStaged (State.withHostSide m q o) := by
  unfold typeCheckResult
  rw [State.withHostSide_typeCode]
  rcases typeScan (typeBytes s.typeCode) with _ | ⟨i, b⟩ <;> rfl

variable {s : State} (h : SameBytes s (s.withHostSide m q o) s.base.toNat s.avail.toNat)
include h

theorem typeParseResult_withHostSide :
    typeParseResult (s.withHostSide m q o) = (typeParseResult s).mapStaged (State.withHostSide m q o) := by
  unfold typeParseResult
  rw [State.windowCheck_withHostSide]
  cases s.windowCheck with
  | some e => rfl
  | none =>
    simp only [State.withHostSide_base, State.withHostSide_avail]
    by_cases hlen : s.avail.toNat = Config.typeBytes
    · rw [hlen, Config.typeBytes] at h
      simp only [hlen, ne_eq, not_true_eq_false, ↓reduceIte, h.memRead_eq, h.unwritten_eq]
      rcases typeScan (s.memRead s.base.toNat 4) with _ | ⟨i, b⟩ <;> rfl
    · simp only [hlen, ne_eq, not_false_eq_true, ↓reduceIte]
      rfl

theorem crcBufResult_withHostSide :
    crcBufResult (s.withHostSide m q o) = (crcBufResult s).mapStaged (State.withHostSide m q o) := by
  unfold crcBufResult
  rw [State.windowCheck_withHostSide]
  cases s.windowCheck with
  | some e => rfl
  | none =>
    simp only [State.withHostSide_base, State.withHostSide_avail, h.memRead_eq, h.unwritten_eq]
    rfl

theorem sliceResult_withHostSide :
    sliceResult (s.withHostSide m q o) = (sliceResult s).mapStaged (State.withHostSide m q o) := by
  unfold sliceResult
  rw [State.windowCheck_withHostSide]
  cases s.windowCheck with
  | some e => rfl
  | none =>
    simp only [State.withHostSide_base, State.withHostSide_avail, h.sliceCore_eq]
    rcases sliceCore s s.base.toNat s.avail.toNat with ⟨u, e | ⟨n, sp⟩⟩ <;> rfl

theorem decodeResult_withHostSide :
    decodeResult (s.withHostSide m q o) = (decodeResult s).mapStaged (State.withHostSide m q o) := by
  unfold decodeResult
  rw [State.windowCheck_withHostSide]
  cases s.windowCheck with
  | some e => rfl
  | none =>
    simp only [State.withHostSide_base, State.withHostSide_avail, h.decodeCore_eq]
    rcases decodeCore s s.base.toNat s.avail.toNat with ⟨u, e | f⟩ <;> rfl

/-- The sliced span lies inside the window, so NEXT's second reading does too (42_frame.md R147). -/
theorem nextResult_withHostSide :
    nextResult (s.withHostSide m q o) = (nextResult s).mapStaged (State.withHostSide m q o) := by
  unfold nextResult
  rw [State.windowCheck_withHostSide]
  cases s.windowCheck with
  | some e => rfl
  | none =>
    simp only [State.withHostSide_base, State.withHostSide_avail, h.sliceCore_eq]
    by_cases hend : s.avail.toNat = 0
    · simp only [hend, ↓reduceIte]
      rfl
    · simp only [hend, ↓reduceIte]
      rcases hc : sliceCore s s.base.toNat s.avail.toNat with ⟨u, e | ⟨n, sp⟩⟩
      · rfl
      · have hsp : SameBytes s (s.withHostSide m q o) s.base.toNat sp :=
          h.sub (Nat.le_refl _) (Nat.add_le_add_left (sliceCore_ok hc).2.2 _)
        dsimp only
        rw [hsp.decodeCore_eq]
        rcases decodeCore s s.base.toNat sp with ⟨u', e | f⟩ <;> rfl

theorem constructResult_withHostSide :
    constructResult (s.withHostSide m q o) = (constructResult s).mapStaged (State.withHostSide m q o) := by
  unfold constructResult
  rw [State.windowCheck_withHostSide]
  cases s.windowCheck with
  | some e => rfl
  | none =>
    simp only [State.withHostSide_base, State.withHostSide_avail, State.withHostSide_typeCode, h.memRead_eq,
      h.unwritten_eq]
    rcases typeScan (typeBytes s.typeCode) with _ | ⟨i, c⟩
    · by_cases hlen : s.avail.toNat ≥ Config.lenLimit
      · simp only [hlen, ↓reduceIte]
        rfl
      · simp only [hlen, ↓reduceIte]
        rfl
    · rfl

theorem cmdResult_withHostSide (i : Instr) :
    cmdResult i (s.withHostSide m q o) = (cmdResult i s).mapStaged (State.withHostSide m q o) := by
  cases i with
  | nop | clear | crcInit | crcByte => rfl
  | typeCheck => exact typeCheckResult_withHostSide s
  | typeParse => exact typeParseResult_withHostSide h
  | crcBuf => exact crcBufResult_withHostSide h
  | slice => exact sliceResult_withHostSide h
  | decode => exact decodeResult_withHostSide h
  | next => exact nextResult_withHostSide h
  | construct => exact constructResult_withHostSide h

end OtherHostSide

/-- Settles O32: every read of a command lies inside the window, so replacing IBUF outside it commutes with the
command. -/
theorem commandsDependOnlyOnTheWindow : Obligations.CommandsDependOnlyOnTheWindow := by
  unfold Obligations.CommandsDependOnlyOnTheWindow
  intro i s m q o hread
  have hsame : SameBytes s (s.withHostSide m q o) s.base.toNat s.avail.toNat := ⟨rfl, hread⟩
  change exec i (s.withHostSide m q o) = mapNext (State.withHostSide m q o) (exec i s)
  rw [exec_eq_complete, exec_eq_complete, cmdResult_withHostSide hsame, State.complete_withHostSide]
  rfl

/-! ## The host's accesses to IBUF, and the refused ones (20_memory.md R61, R66) -/

theorem ibufAccessOk_iff {p : Params} {k bits : Nat} :
    ibufAccessOk p k bits = true ↔ bits = 8 ∧ k < p.ibufSize.toNat := by
  simp [ibufAccessOk]

/-- A register access that is not permitted, read or write (20_memory.md R66). -/
theorem step_of_refused_reg {s : State} {o bits : Nat} {d : BitVec 64} {rest : List HostAction}
    (hp : s.pending = .write (.reg o) bits d :: rest ∨ s.pending = .read (.reg o) bits :: rest)
    (hno : bits ≠ 32 ∨ o % 4 ≠ 0 ∨ 0x100 ≤ o) : step s = .next { s with pending := rest, faulted := true } := by
  have hok : ¬ regAccessOk o bits = true := by
    rw [regAccessOk_iff]
    omega
  rcases hp with hp | hp <;> rw [step_cons hp] <;> exact if_neg hok

/-- An IBUF access that is not permitted, read or write (20_memory.md R66). -/
theorem step_of_refused_ibuf {s : State} {k bits : Nat} {d : BitVec 64} {rest : List HostAction}
    (hp : s.pending = .write (.ibuf k) bits d :: rest ∨ s.pending = .read (.ibuf k) bits :: rest)
    (hno : bits ≠ 8 ∨ s.params.ibufSize.toNat ≤ k) : step s = .next { s with pending := rest, faulted := true } := by
  have hok : ¬ ibufAccessOk s.params k bits = true := by
    rw [ibufAccessOk_iff]
    omega
  rcases hp with hp | hp <;> rw [step_cons hp] <;> exact if_neg hok

/-- Settles O50: each region refuses what `regAccessOk` or `ibufAccessOk` does not permit. -/
theorem otherAccessesAreRefused : Obligations.OtherAccessesAreRefused := by
  unfold Obligations.OtherAccessesAreRefused
  rintro s g bits d rest hp (⟨o, rfl, hno⟩ | ⟨k, rfl, hno⟩)
  · exact step_of_refused_reg hp hno
  · exact step_of_refused_ibuf hp hno

/-- A permitted byte write of IBUF (20_memory.md R61). -/
theorem step_writeIbuf {s : State} {k : Nat} {d : BitVec 64} {rest : List HostAction}
    (hp : s.pending = .write (.ibuf k) 8 d :: rest) (hk : k < s.params.ibufSize.toNat) :
    step s = .next { s with pending := rest, ibuf := s.ibuf.write k (d.setWidth 8) } := by
  rw [step_cons hp]
  exact if_pos (ibufAccessOk_iff.2 ⟨rfl, hk⟩)

/-- A permitted byte read of IBUF (20_memory.md R61). -/
theorem step_readIbuf {s : State} {k : Nat} {rest : List HostAction} (hp : s.pending = .read (.ibuf k) 8 :: rest)
    (hk : k < s.params.ibufSize.toNat) : step s = .next (hostReadIbuf k { s with pending := rest }) := by
  rw [step_cons hp]
  exact if_pos (ibufAccessOk_iff.2 ⟨rfl, hk⟩)

theorem hostReadIbuf_of_written {s : State} {k : Nat} {b : Byte} (h : s.ibuf.read k = some b) :
    hostReadIbuf k s = s.observe (.ibuf k) (b.setWidth 32) := by
  simp [hostReadIbuf, State.unwritten, State.byteAt, h]

theorem hostReadIbuf_of_unwritten {s : State} {k : Nat} (h : s.ibuf.read k = none) :
    hostReadIbuf k s = State.noteUnwritten true (s.observe (.ibuf k) ((s.byteAt k).setWidth 32)) := by
  simp [hostReadIbuf, State.unwritten, h]

/-- Settles O48, access by access. -/
theorem ibufHostAccesses : Obligations.IbufHostAccesses := by
  unfold Obligations.IbufHostAccesses
  refine ⟨fun s k d rest hp hk => ?_, fun s k b rest hp hk hb => ?_, fun s k rest hp hk hnone => ?_,
    fun s k bits d rest hp hno => step_of_refused_ibuf hp hno, fun s t rest hp h k => ?_⟩
  · exact ⟨_, step_writeIbuf hp hk, Memory.read_write_same .., fun j hj => Memory.read_write_of_ne _ _ hj⟩
  · rw [step_readIbuf hp hk, hostReadIbuf_of_written (by exact hb)]
    rfl
  · rw [step_readIbuf hp hk, hostReadIbuf_of_unwritten (by exact hnone)]
    exact ⟨_, _, rfl⟩
  · rw [step_cons hp] at h
    obtain rfl := Host.Outcome.next.inj h
    rfl

/-! ## `load` (30_encoding.md R88) -/

/-- Holding `b :: bs` is holding `b` and, from the next offset on, `bs`. -/
theorem State.holds_cons {s : State} {k : Nat} {b : Byte} {bs : List Byte} :
    s.holds k (b :: bs) ↔ s.ibuf.read k = some b ∧ s.holds (k + 1) bs := by
  simp [State.holds, List.range'_succ]

/-- A run goes on from the state its first step answers. -/
theorem run_succ_of_step {M : Host.Core} {n : Nat} {s t : M.State} (h : M.step s = .next t) :
    M.run (n + 1) s = M.run n t := by
  rw [Host.Core.run, h]

/-- Settles O49, by induction on the bytes: each line writes its byte, and the later lines leave it alone. -/
theorem loadWritesTheBytes : Obligations.LoadWritesTheBytes := by
  unfold Obligations.LoadWritesTheBytes
  intro s k bs rest hp hfit
  induction bs generalizing s k with
  | nil => exact ⟨s, rfl, by rw [← show s.pending = rest from hp], rfl, fun _ _ => rfl⟩
  | cons b bs ih =>
    rw [List.length_cons] at hfit ⊢
    have hstep := step_writeIbuf (s := s) hp (by omega)
    have hfit' : k + 1 + bs.length ≤ s.params.ibufSize.toNat := by omega
    obtain ⟨t, hrun, ht, hholds, hkept⟩ :=
      ih { s with pending := loadLines (k + 1) bs ++ rest, ibuf := s.ibuf.write k _ } (k + 1) rfl hfit'
    refine ⟨t, (run_succ_of_step (M := Sys2Proof.core) hstep).trans hrun, ht, State.holds_cons.2 ⟨?_, hholds⟩,
      fun j hj => ?_⟩
    · rw [hkept k (by omega), Memory.read_write_same]
      simp
    · rw [hkept j (by omega), Memory.read_write_of_ne _ _ (by omega)]

end Sys2Proof.Machine

/-! The decoder and the encoder (30_encoding.md R80 to R86): each answer of `decode`, from the word alone. -/

namespace Sys2Proof

/-- A word decodes to a command exactly when it is the command's word (30_encoding.md R82, R86). -/
theorem decode_eq_ok_iff {w : Word} {i : Instr} : decode w = .ok i ↔ w = encode i :=
  ⟨eq_encode_of_decode, by rintro rfl; exact decode_encode i⟩

/-- The reserved bits are looked at first, so a nonzero RSVD names the rejection whatever OPC is (R85). -/
theorem decode_eq_reservedBits_iff {w : Word} : decode w = .error .reservedBits ↔ 256 ≤ w.toNat := by
  rw [← Nat.not_lt, ← rsvdField_eq_zero_iff]
  unfold decode
  split
  next hr => simpa using hr
  next hr =>
    rw [not_not.1 hr]
    cases lookupOpc (opcField w) opcodeMap <;> simp

/-- What is left to reject by its OPC: a word with RSVD = 0 that is no command's word (R85). -/
theorem decode_eq_unmappedOpc_iff {w : Word} :
    decode w = .error .unmappedOpc ↔ w.toNat < 256 ∧ ∀ i, w ≠ encode i := by
  rw [← Nat.not_le, ← decode_eq_reservedBits_iff]
  rcases hd : decode w with r | i
  · cases r with
    | reservedBits => simp
    | unmappedOpc => simpa using ne_encode_of_reject hd
  · simp [eq_encode_of_decode hd]

/-- Settles O2, one equivalence for each answer of the decoder. -/
theorem everyWordIsOneCommandOrIllegal : Obligations.EveryWordIsOneCommandOrIllegal := by
  unfold Obligations.EveryWordIsOneCommandOrIllegal
  exact fun w => ⟨fun i => decode_eq_ok_iff, decode_eq_reservedBits_iff, decode_eq_unmappedOpc_iff⟩

/-- Settles O1: each row's word is its command's encoding, which decodes to the command. -/
theorem opcodeMapWords : Obligations.OpcodeMapWords := by
  unfold Obligations.OpcodeMapWords
  intro p hp
  have hrow : encode p.2 = p.1 := by
    revert p
    decide
  exact ⟨by rw [← hrow, decode_encode], hrow⟩

end Sys2Proof

/-! The frames of the commands (30_encoding.md R83): what each command stages, and what a command that reads IBUF leaves
of the model's fault record. -/

namespace Sys2Proof.Machine

/-! ## The registers each command stages -/

theorem typeCheckResult_staged {s staged : State} {o : FinishOpts}
    (h : (typeCheckResult s).result = .ok (o, staged)) : staged = s := by
  rcases typeCheckResult_cases s with ⟨_, _, _, he⟩ | ⟨_, he⟩ <;> rw [he] at h <;> simp at h
  exact h.2.symm

theorem typeParseResult_staged {s staged : State} {o : FinishOpts}
    (h : (typeParseResult s).result = .ok (o, staged)) : ∃ v, staged = { s with typeCode := v } := by
  rcases typeParseResult_cases s with ⟨_, he⟩ | ⟨_, _, he⟩ | ⟨_, _, _, _, _, he⟩ | ⟨_, _, _, he⟩ <;>
    rw [he] at h <;> simp at h
  exact ⟨_, h.2.symm⟩

theorem crcBufResult_staged {s staged : State} {o : FinishOpts}
    (h : (crcBufResult s).result = .ok (o, staged)) : ∃ v, staged = { s with acc := v } := by
  rcases crcBufResult_cases s with ⟨_, he⟩ | ⟨_, he⟩ <;> rw [he] at h <;> simp at h
  exact ⟨_, h.2.symm⟩

theorem sliceResult_staged {s staged : State} {o : FinishOpts} (h : (sliceResult s).result = .ok (o, staged)) :
    ∃ n sp, staged = { s with len := n, span := sp } := by
  rcases sliceResult_cases s with ⟨_, he⟩ | ⟨_, _, _, _, he⟩ | ⟨_, _, _, _, _, he⟩ <;> rw [he] at h <;> simp at h
  exact ⟨_, _, h.2.symm⟩

theorem decodeResult_staged {s staged : State} {o : FinishOpts} (h : (decodeResult s).result = .ok (o, staged)) :
    ∃ f, staged = s.withRecord s.base.toNat f := by
  rcases decodeResult_cases s with ⟨_, he⟩ | ⟨_, _, _, _, he⟩ | ⟨_, _, _, _, he⟩ <;> rw [he] at h <;> simp at h
  exact ⟨_, h.2.symm⟩

/-- NEXT stages nothing at the end of the stream, and else a record and the advance of the window (42_frame.md R147). -/
theorem nextResult_staged {s staged : State} {o : FinishOpts} (h : (nextResult s).result = .ok (o, staged)) :
    staged = s ∨ ∃ f b a, staged = { s.withRecord s.base.toNat f with base := b, avail := a } := by
  rcases nextResult_cases s with ⟨_, he⟩ | ⟨_, _, he⟩ | ⟨_, _, _, _, _, he⟩ | ⟨_, _, _, _, _, _, _, _, _, he⟩ |
    ⟨_, _, _, _, _, _, _, _, _, he⟩ <;> rw [he] at h <;> simp at h
  · exact .inl h.2.symm
  · exact .inr ⟨_, _, _, h.2.symm⟩

theorem constructResult_staged {s staged : State} {o : FinishOpts}
    (h : (constructResult s).result = .ok (o, staged)) :
    ∃ n sp c d, staged = { s with len := n, span := sp, crcCalc := c, dataOff := d } := by
  rcases constructResult_cases s with ⟨_, he⟩ | ⟨_, _, _, _, he⟩ | ⟨_, _, _, he⟩ | ⟨_, _, _, he⟩ <;>
    rw [he] at h <;> simp at h
  exact ⟨_, _, _, _, h.2.symm⟩

/-- No command stages a draw of the free value: `noteUnwritten` alone advances the counter (log 5). -/
theorem draws_of_staged {i : Instr} {s staged : State} {o : FinishOpts}
    (h : (cmdResult i s).result = .ok (o, staged)) : staged.draws = s.draws := by
  cases i with
  | nop | clear | crcInit | crcByte =>
    obtain ⟨-, rfl⟩ := Prod.mk.inj (Except.ok.inj h)
    rfl
  | typeCheck => rw [typeCheckResult_staged h]
  | typeParse => obtain ⟨_, rfl⟩ := typeParseResult_staged h; rfl
  | crcBuf => obtain ⟨_, rfl⟩ := crcBufResult_staged h; rfl
  | slice => obtain ⟨_, _, rfl⟩ := sliceResult_staged h; rfl
  | decode => obtain ⟨_, rfl⟩ := decodeResult_staged h; rfl
  | next => obtain rfl | ⟨_, _, _, rfl⟩ := nextResult_staged h <;> rfl
  | construct => obtain ⟨_, _, _, _, rfl⟩ := constructResult_staged h; rfl

/-! ## What every command leaves unchanged -/

/-- No command stores to IBUF (30_encoding.md R83). -/
theorem exec_ibuf {i : Instr} {s t : State} (h : exec i s = .next t) : t.ibuf = s.ibuf := by
  rcases exec_cases h with ⟨e, -, rfl⟩ | ⟨o, staged, hr, rfl⟩
  · rfl
  · exact (stagedStorage_of_result hr).ibuf

theorem exec_read_ibuf {i : Instr} {s t : State} (h : exec i s = .next t) (a : Nat) :
    t.ibuf.read a = s.ibuf.read a := by
  rw [exec_ibuf h]

/-- Every read of a command lies inside its window (20_memory.md R63), so over a written window it finds no unwritten
byte. -/
theorem cmdResult_unwritten_of_windowWritten (i : Instr) {s : State} (hw : s.windowWritten) :
    (cmdResult i s).unwritten = false := by
  have hin (n : Nat) (hn : n ≤ s.avail.toNat) : ¬ s.someUnwritten s.base.toNat n := by
    rw [← unwritten_iff, Bool.not_eq_true]
    exact unwritten_sub (windowWritten_iff.1 hw) (Nat.le_refl _) (Nat.add_le_add_left hn _)
  rw [← Bool.not_eq_true]
  intro hu
  cases i with
  | nop | clear | typeCheck | crcInit | crcByte =>
    rw [cmdResult_unwritten_of_not_readsIbuf rfl] at hu
    exact nomatch hu
  | typeParse =>
    obtain ⟨-, h4, hs⟩ := (typeParseResult_unwritten_iff s).1 hu
    exact hin 4 (by rw [h4]; decide) hs
  | crcBuf =>
    obtain ⟨-, hs⟩ := (crcBufResult_unwritten_iff s).1 hu
    exact hin _ (Nat.le_refl _) hs
  | slice =>
    obtain ⟨-, ha, hs⟩ := (sliceResult_unwritten_iff s).1 hu
    exact hin 4 (by omega) hs
  | decode =>
    obtain ⟨-, ha, hs | ⟨n, -, -, hn, hs⟩⟩ := (decodeResult_unwritten_iff s).1 hu
    · exact hin 4 (by omega) hs
    · exact hin _ (Nat.le_of_eq hn) hs
  | next =>
    obtain ⟨-, ha, hs | ⟨n, -, -, hn, hs⟩⟩ := (nextResult_unwritten_iff s).1 hu
    · exact hin 4 (by omega) hs
    · exact hin _ hn hs
  | construct =>
    obtain ⟨-, -, -, hs⟩ := (constructResult_unwritten_iff s).1 hu
    exact hin _ (Nat.le_refl _) hs

/-- Over a written window a command leaves the model's fault record alone (20_memory.md R62, log 5). -/
theorem exec_faultRecord_of_windowWritten {i : Instr} {s t : State} (h : exec i s = .next t)
    (hw : s.windowWritten) : t.faulted = s.faulted ∧ t.draws = s.draws := by
  rcases exec_cases h with ⟨e, -, rfl⟩ | ⟨o, staged, hr, rfl⟩ <;>
    rw [cmdResult_unwritten_of_windowWritten i hw, State.noteUnwritten_false]
  · exact ⟨rfl, rfl⟩
  · rw [State.finish_faulted, State.finish_draws]
    exact ⟨(stagedStorage_of_result hr).faulted, draws_of_staged hr⟩

/-! ## The frames -/

/-- Settles O17: these commands have one outcome each, TYPE_CHECK two. -/
theorem frameOfTheRegisterCommands : Obligations.FrameOfTheRegisterCommands := by
  unfold Obligations.FrameOfTheRegisterCommands
  refine ⟨fun s t h => ?_, fun s t h => ?_, fun s t h => ⟨?_, exec_read_ibuf h⟩, fun s t h => ?_⟩
  · obtain rfl := Host.Outcome.next.inj h
    exact ⟨rfl, rfl, rfl, fun _ => rfl⟩
  · obtain rfl := Host.Outcome.next.inj h
    exact ⟨rfl, rfl, fun _ => rfl⟩
  · rcases exec_cases h with ⟨e, -, rfl⟩ | ⟨o, staged, hr, rfl⟩ <;>
      rw [cmdResult_unwritten_of_not_readsIbuf rfl]
    · rfl
    · rw [typeCheckResult_staged hr]
      rfl
  · rcases h with h | h <;> obtain rfl := Host.Outcome.next.inj h
    · exact ⟨rfl, rfl, rfl, fun _ => rfl⟩
    · exact ⟨rfl, rfl, rfl, fun _ => rfl⟩

/-- CRC_BUF and SLICE make no letter test (10_state.md R35). -/
theorem exec_typeValid_of_crcBuf_or_slice {i : Instr} {s t : State} (hi : i = .crcBuf ∨ i = .slice)
    (h : exec i s = .next t) : t.status.typeValid = s.status.typeValid := by
  have htv := executeWord_typeValid ((executeWord_of_decode (decode_encode i) s).trans h)
  rcases hi with rfl | rfl <;> simpa using htv

/-- Settles O18, from what the two commands stage. -/
theorem frameOfCrcBufAndSlice : Obligations.FrameOfCrcBufAndSlice := by
  unfold Obligations.FrameOfCrcBufAndSlice
  refine ⟨fun s t h => ⟨?_, exec_typeValid_of_crcBuf_or_slice (.inl rfl) h, exec_read_ibuf h,
    exec_faultRecord_of_windowWritten h⟩, fun s t h => ⟨?_, exec_typeValid_of_crcBuf_or_slice (.inr rfl) h,
    exec_read_ibuf h, exec_faultRecord_of_windowWritten h⟩⟩ <;>
    rcases exec_cases h with ⟨e, -, rfl⟩ | ⟨o, staged, hr, rfl⟩
  · rfl
  · obtain ⟨_, rfl⟩ := crcBufResult_staged hr
    rfl
  · rfl
  · obtain ⟨_, _, rfl⟩ := sliceResult_staged hr
    rfl

/-- Settles O19, from what the four commands stage. -/
theorem frameOfTheTypeAndRecordCommands : Obligations.FrameOfTheTypeAndRecordCommands := by
  unfold Obligations.FrameOfTheTypeAndRecordCommands
  refine ⟨fun s t h => ⟨?_, exec_read_ibuf h, exec_faultRecord_of_windowWritten h⟩,
    fun s t h => ⟨?_, exec_read_ibuf h, exec_faultRecord_of_windowWritten h⟩,
    fun s t h => ⟨?_, exec_read_ibuf h, exec_faultRecord_of_windowWritten h⟩,
    fun s t h => ⟨?_, exec_read_ibuf h, exec_faultRecord_of_windowWritten h⟩⟩ <;>
    rcases exec_cases h with ⟨e, -, rfl⟩ | ⟨o, staged, hr, rfl⟩
  · rfl
  · obtain ⟨_, rfl⟩ := typeParseResult_staged hr
    rfl
  · rfl
  · obtain ⟨_, rfl⟩ := decodeResult_staged hr
    rfl
  · rfl
  · obtain rfl | ⟨_, _, _, rfl⟩ := nextResult_staged hr
    · rfl
    · rfl
  · rfl
  · obtain ⟨_, _, _, _, rfl⟩ := constructResult_staged hr
    rfl

end Sys2Proof.Machine

/-! The issue of a command and a program's encoding (30_encoding.md R81, R87 to R89). -/

namespace Sys2Proof.Machine

/-- A permitted CMD write runs the decoded command (30_encoding.md R81). -/
theorem step_writeCmd {s : State} {d : BitVec 64} {rest : List HostAction} {i : Instr}
    (hp : s.pending = .write (.reg 0x08) 32 d :: rest) (hd : decode (d.setWidth 32) = .ok i) :
    step s = exec i { s with pending := rest } := by
  rw [step_writeReg hp (by decide) (by decide)]
  exact executeWord_of_decode hd _

/-- Settles O4; the word `withFetchWord` puts first is the low 32 bits of the access's data. -/
theorem cmdWriteRunsTheDecodedCommand : Obligations.CmdWriteRunsTheDecodedCommand := by
  unfold Obligations.CmdWriteRunsTheDecodedCommand
  refine ⟨fun s d rest i => step_writeCmd, fun s w i hd => ?_⟩
  have hw : (BitVec.ofNat 64 (w.toNat % 2 ^ 32)).setWidth 32 = w := by
    apply BitVec.eq_of_toNat_eq
    rw [BitVec.toNat_setWidth, BitVec.toNat_ofNat]
    have := w.isLt
    omega
  exact step_writeCmd (s := s.withFetchWord 32 w.toNat) rfl (by rw [hw, hd])

/-! ## Every host action answers a next state (60_exceptions.md R219) -/

theorem exists_executeWord_next (w : Word) (s : State) : ∃ t, executeWord w s = .next t := by
  rcases hd : decode w with r | i
  · exact ⟨_, executeWord_of_reject hd s⟩
  · exact ⟨_, by rw [executeWord_of_decode hd, exec_eq_complete]⟩

theorem exists_hostWriteReg_next (o : Nat) (v : Word) (s : State) : ∃ t, hostWriteReg o v s = .next t := by
  by_cases h8 : o = 0x08
  · subst h8
    exact exists_executeWord_next v s
  · exact ⟨_, hostWriteReg_eq h8 v s⟩

theorem exists_performAction_next (a : HostAction) (s : State) : ∃ t, performAction a s = .next t := by
  unfold performAction
  split
  next o bits d =>
    split
    · exact exists_hostWriteReg_next o _ s
    · exact ⟨_, rfl⟩
  next => split <;> exact ⟨_, rfl⟩
  next => split <;> exact ⟨_, rfl⟩
  next => split <;> exact ⟨_, rfl⟩
  next => exact ⟨_, rfl⟩

/-- The step of a program's next line (30_encoding.md R87). -/
theorem exists_step_line (a : HostAction) (rest : List HostAction) (s : State) :
    ∃ t, step { s with pending := a :: rest } = .next t := by
  rw [step_cons rfl]
  exact exists_performAction_next a _

/-! ## The encoding, line by line (30_encoding.md R89) -/

/-- What a permitted read of a register offset observes (10_state.md R24). -/
theorem observed_of_readReg {s t : State} {o : Nat} {rest : List HostAction} (h4 : o % 4 = 0) (hlt : o < 0x100)
    (h : step { s with pending := .read (.reg o) 32 :: rest } = .next t) :
    t.observed = ⟨.reg o, s.readOffset o⟩ :: s.observed := by
  rw [step_readReg rfl h4 hlt] at h
  obtain rfl := Host.Outcome.next.inj h
  rfl

/-- What a permitted read of a written IBUF byte observes (20_memory.md R61). -/
theorem observed_of_readIbuf {s t : State} {k : Nat} {b : Byte} {rest : List HostAction}
    (hk : k < s.params.ibufSize.toNat) (hb : s.ibuf.read k = some b)
    (h : step { s with pending := .read (.ibuf k) 8 :: rest } = .next t) :
    t.observed = ⟨.ibuf k, b.setWidth 32⟩ :: s.observed := by
  rw [step_readIbuf rfl (by exact hk), hostReadIbuf_of_written (by exact hb)] at h
  obtain rfl := Host.Outcome.next.inj h
  rfl

/-- Settles O57: a read's triple has what its step observes, and the step of a permitted read observes its target. -/
theorem programEncodingIsItsBusTransactions : Obligations.ProgramEncodingIsItsBusTransactions := by
  unfold Obligations.ProgramEncodingIsItsBusTransactions
  refine ⟨programEncoding_nil, fun a rest s => ?_⟩
  obtain ⟨t, hstep⟩ := exists_step_line a rest s
  have hread (g : Target) (bits : Nat) (v : Word) (ha : a = .read g bits)
      (ho : t.observed = ⟨g, v⟩ :: s.observed) :
      (transactionOf (observedSince s t) a).toList = [⟨.read, g, some (v.setWidth 64)⟩] := by
    rw [ha, observedSince_cons ho]
    rfl
  refine ⟨t, _, hstep, programEncoding_cons hstep, fun g bits d ha => ?_, hread, fun g bits ha ho => ?_,
    fun ha => ?_, fun o ha h4 hlt => ?_, fun k b ha hk hb => ?_⟩
  · exact ⟨accessData bits d, accessData_toNat bits d, by rw [ha]; rfl⟩
  · rw [ha, observedSince_same ho]
    rfl
  · rw [ha]
    rfl
  · exact hread _ _ _ ha (observed_of_readReg h4 hlt (ha ▸ hstep))
  · rw [hread _ _ _ ha (observed_of_readIbuf hk hb (ha ▸ hstep)), BitVec.setWidth_setWidth (by omega)]

/-- Settles O58, from `programEncoding_loadLines`. -/
theorem loadEncodesAsItsByteWrites : Obligations.LoadEncodesAsItsByteWrites := by
  unfold Obligations.LoadEncodesAsItsByteWrites
  intro s k bs hfit
  rw [programEncoding_loadLines bs k s hfit]
  refine ⟨by rw [List.length_map, List.length_zipIdx], fun i hi => ?_⟩
  rw [List.getElem?_map, List.getElem?_zipIdx, List.getElem?_eq_getElem hi]
  simp

/-- Settles O59, by induction on the lines: each line's step is the same step in both blocks, and it keeps the
parameters. -/
theorem programEncodingIgnoresTheBaseAddresses : Obligations.ProgramEncodingIgnoresTheBaseAddresses := by
  unfold Obligations.ProgramEncodingIgnoresTheBaseAddresses
  intro lines s p hp
  change programEncoding lines (s.withParams p) = programEncoding lines s
  induction lines generalizing s with
  | nil => rfl
  | cons a rest ih =>
    obtain ⟨t, hstep⟩ := exists_step_line a rest s
    have hstep' : step { s.withParams p with pending := a :: rest } = .next (t.withParams p) := by
      have hcomm := step_withParams (s := { s with pending := a :: rest }) hp
      rw [hstep] at hcomm
      exact hcomm
    have hpt : p.ibufSize = t.params.ibufSize := by rw [step_params hstep]; exact hp
    rw [programEncoding_cons hstep, programEncoding_cons hstep', ih t hpt]
    rfl

end Sys2Proof.Machine

/-! The chunk-type commands TYPE_CHECK and TYPE_PARSE (40_type.md R103, R104): each outcome with its exact next state. -/

namespace Sys2Proof.Machine

/-! ## A command without an unwritten read, over a written window -/

/-- A command that fails without an unwritten read, with ERR as the number `err` (60_exceptions.md R202). -/
theorem exec_of_error {i : Instr} {s : State} {e : CmdError} {err : Nat} (h : cmdResult i s = ⟨false, .error e⟩)
    (herr : (kindCode e.kind).toNat + 2 ^ 8 * e.wrapped.toNat + 2 ^ 9 * e.sub.toNat + 2 ^ 10 * e.stage.toNat +
      2 ^ 16 * (opcodeOf i).toNat = err) :
    exec i s = .next { s.afterError err e.info0 e.info1 with
      status := { s.status.failed with typeValid := !e.clearTv && s.status.typeValid } } := by
  rw [exec_eq_complete, h, State.complete_error, State.noteUnwritten_false, State.raise, errWord, packErr_eq_sum, herr]
  rfl

/-- A command that succeeds without an unwritten read (60_exceptions.md R203). -/
theorem exec_of_ok {i : Instr} {s staged : State} {o : FinishOpts} (h : cmdResult i s = ⟨false, .ok (o, staged)⟩) :
    exec i s = .next (State.finish o staged) := by
  rw [exec_eq_complete, h, State.complete_ok, State.noteUnwritten_false]

/-- MemRead over a written window reads the window's bytes (20_memory.md R62). -/
theorem State.memRead_of_windowIs {s : State} {bs : List Byte} (h : s.windowIs bs) :
    s.memRead s.base.toNat s.avail.toNat = bs := by
  obtain ⟨-, hlen, hholds⟩ := h
  rw [← hlen, State.memRead_of_holds hholds]

/-- A written window has no unwritten byte (20_memory.md R62). -/
theorem State.unwritten_of_windowIs {s : State} {bs : List Byte} (h : s.windowIs bs) :
    s.unwritten s.base.toNat s.avail.toNat = false := by
  obtain ⟨-, hlen, hholds⟩ := h
  rw [← hlen, State.unwritten_of_holds hholds]

/-! ## TYPE_CHECK (40_type.md R103) -/

theorem typeCheckResult_of_scan_none {s : State} (h : typeScan (typeBytes s.typeCode) = none) :
    typeCheckResult s = ⟨false, .ok ({ setTv := true }, s)⟩ := by
  simp only [typeCheckResult, h]

theorem typeCheckResult_of_scan_some {s : State} {i : Nat} {b : Byte}
    (h : typeScan (typeBytes s.typeCode) = some (i, b)) : typeCheckResult s =
      ⟨false, .error { kind := .invalidCharacter, info0 := i, info1 := b.toNat, clearTv := true }⟩ := by
  simp only [typeCheckResult, h]

/-- Settles O8, by what TypeScan answers on TYPE. -/
theorem typeCheckValidatesType : Obligations.TypeCheckValidatesType := by
  unfold Obligations.TypeCheckValidatesType
  refine ⟨fun s hletters => ?_, fun s i hi hbefore hbad => ?_⟩
  · have hscan := typeScan_typeBytes_none_iff.2 hletters
    exact exec_of_ok (i := .typeCheck) (typeCheckResult_of_scan_none hscan)
  · have hscan := typeScan_typeBytes_some hi hbefore hbad
    exact exec_of_error (i := .typeCheck) (typeCheckResult_of_scan_some hscan) (by simp [kindCode, opcodeOf])

/-! ## TYPE_PARSE (40_type.md R104) -/

theorem typeParseResult_of_length_ne {s : State} (hf : s.windowFits) (h4 : s.avail ≠ 4) : typeParseResult s =
    ⟨false, .error { kind := .invalidLength, info0 := s.avail.toNat, info1 := 0 }⟩ := by
  have hlen : s.avail.toNat ≠ Config.typeBytes := fun h => h4 (BitVec.eq_of_toNat_eq h)
  simp only [typeParseResult, State.windowCheck_of_fits hf, if_pos hlen]

section
variable {s : State} {t : List Byte} (hw : s.windowIs t) (h4 : s.avail = 4)
include hw h4

/-- What the letter test reads of a written window of four bytes. -/
theorem State.fourBytes_of_windowIs : s.avail.toNat = Config.typeBytes ∧ s.memRead s.base.toNat 4 = t ∧
    s.unwritten s.base.toNat 4 = false := by
  have hlen : s.avail.toNat = 4 := by rw [h4]; rfl
  exact ⟨hlen, hlen ▸ State.memRead_of_windowIs hw, hlen ▸ State.unwritten_of_windowIs hw⟩

theorem typeParseResult_of_scan_none (ht : typeScan t = none) : typeParseResult s =
    ⟨false, .ok ({ setTv := true }, { s with typeCode := BitVec.ofNat 32 (be32 t) })⟩ := by
  obtain ⟨hlen, hread, hwritten⟩ := State.fourBytes_of_windowIs hw h4
  simp [typeParseResult, State.windowCheck_of_fits hw.1, hlen, hread, hwritten, ht]

theorem typeParseResult_of_scan_some {i : Nat} {b : Byte} (ht : typeScan t = some (i, b)) : typeParseResult s =
    ⟨false, .error { kind := .invalidCharacter, info0 := i, info1 := b.toNat }⟩ := by
  obtain ⟨hlen, hread, hwritten⟩ := State.fourBytes_of_windowIs hw h4
  simp [typeParseResult, State.windowCheck_of_fits hw.1, hlen, hread, hwritten, ht]

end

/-- Settles O9: the window check, the length test and the letter test answer in this order. -/
theorem typeParseLoadsTheWindow : Obligations.TypeParseLoadsTheWindow := by
  unfold Obligations.TypeParseLoadsTheWindow
  refine ⟨fun s hf => ?_, fun s hf h4 => ?_, fun s p r c hw h4 hp hc => ?_, fun s t hw h4 ht => ?_⟩
  · exact exec_of_error (cmdResult_of_not_fits (i := .typeParse) rfl hf) (by simp [kindCode, opcodeOf])
  · exact exec_of_error (i := .typeParse) (typeParseResult_of_length_ne hf h4) (by simp [kindCode, opcodeOf])
  · have hscan := typeScan_append hp hc r
    exact exec_of_error (i := .typeParse) (typeParseResult_of_scan_some hw h4 hscan) (by simp [kindCode, opcodeOf])
  · obtain ⟨-, hletters⟩ := ht
    have hscan := (typeScan_eq_none_iff t).2 hletters
    exact exec_of_ok (i := .typeParse) (typeParseResult_of_scan_none hw h4 hscan)

end Sys2Proof.Machine

/-! The CRC-32 function and the commands CRC_INIT, CRC_BYTE and CRC_BUF (41_crc.md R121 to R127). -/

namespace Sys2Proof.Machine

/-! ## The CRC function (41_crc.md R121, R122, R124) -/

/-- The word the bitwise update starts from is the table's index, below the bits of the accumulator that the 8
iterations only shift. -/
theorem xor_setWidth_eq_index_xor_upper (acc : Word) (b : Byte) :
    acc ^^^ b.setWidth 32 = (acc.setWidth 8 ^^^ b).setWidth 32 ^^^ (acc >>> 8 <<< 8) := by
  ext i hi
  by_cases h8 : i < 8
  · simp [h8, BitVec.getLsbD_eq_getElem hi]
  · simp [h8, BitVec.getLsbD_eq_getElem hi, Nat.add_sub_cancel' (Nat.le_of_not_lt h8), Bool.xor_comm]

theorem crcUpd_eq_crcSteps (acc : Word) (b : Byte) : crcUpd acc b = crcSteps 8 (acc ^^^ b.setWidth 32) := by
  have hlow : ∀ i < 8, (acc >>> 8 <<< 8).getLsbD i = false := fun i hi => by simp [hi]
  have hshift : acc >>> 8 <<< 8 >>> 8 = acc >>> 8 := by
    ext i hi
    simpa using fun h : acc.getLsbD (8 + i) = true => BitVec.lt_of_getLsbD h
  calc crcUpd acc b
    _ = crcSteps 8 ((acc.setWidth 8 ^^^ b).setWidth 32) ^^^ (acc >>> 8) := rfl
    _ = crcSteps 8 ((acc.setWidth 8 ^^^ b).setWidth 32 ^^^ (acc >>> 8 <<< 8)) := by
      rw [crcSteps_xor 8 _ _ hlow, hshift]
    _ = crcSteps 8 (acc ^^^ b.setWidth 32) := by rw [xor_setWidth_eq_index_xor_upper]

theorem crcFold_append (acc : Word) (s t : List Byte) : crcFold acc (s ++ t) = crcFold (crcFold acc s) t :=
  List.foldl_append

/-- Settles O35: the iterations act on the table's index alone, and Fold is a left fold. -/
theorem crcUpdateBitwiseAndStreaming : Obligations.CrcUpdateBitwiseAndStreaming := by
  unfold Obligations.CrcUpdateBitwiseAndStreaming
  exact ⟨crcUpd_eq_crcSteps, fun acc s t => (crcFold_append acc s t).symm⟩

/-- Settles O34, running the table's construction. -/
theorem crcTableCheckEntries : Obligations.CrcTableCheckEntries := by
  unfold Obligations.CrcTableCheckEntries
  decide

/-! ## The commands (41_crc.md R125, R126, R127) -/

/-- CRC_BYTE succeeds in every state (41_crc.md R126). -/
theorem exec_crcByte (s : State) :
    exec .crcByte s = .next (State.finish {} { s with acc := crcUpd s.acc s.din }) :=
  exec_of_ok (i := .crcByte) rfl

/-- Settles O10: CRC_INIT has one outcome. -/
theorem crcInitStartsTheAccumulator : Obligations.CrcInitStartsTheAccumulator := by
  unfold Obligations.CrcInitStartsTheAccumulator
  exact fun s => exec_of_ok (i := .crcInit) rfl

/-- Settles O11: the byte's update, its index masked and XORed in 32 bits. -/
theorem crcByteFoldsDin : Obligations.CrcByteFoldsDin := by
  unfold Obligations.CrcByteFoldsDin
  intro s
  have hindex : ((s.acc &&& 0xFF) ^^^ s.din.setWidth 32).setWidth 8 = s.acc.setWidth 8 ^^^ s.din := by
    have hmask : (0xFF : Word).setWidth 8 = BitVec.allOnes 8 := rfl
    rw [BitVec.setWidth_xor, BitVec.setWidth_and, hmask, BitVec.and_allOnes,
      BitVec.setWidth_setWidth_of_le _ (by decide), BitVec.setWidth_eq]
  rw [hindex]
  exact exec_crcByte s

/-- Settles O12: the window check, the fold of a written window, and the fault of an unwritten read. -/
theorem crcBufFoldsTheWindow : Obligations.CrcBufFoldsTheWindow := by
  unfold Obligations.CrcBufFoldsTheWindow
  refine ⟨fun s hf => ?_, fun s bs hw => exec_crcBuf_of_windowIs hw, fun s hf hu => ?_⟩
  · exact exec_of_error (cmdResult_of_not_fits (i := .crcBuf) rfl hf) (by simp [kindCode, opcodeOf])
  · have hstep := exec_eq_complete .crcBuf s
    exact ⟨_, hstep, (exec_faulted_iff hstep (crcBufResult_unwritten_iff s)).2 (.inr ⟨hf, hu⟩)⟩

/-- Settles O36: CRC_BYTE leaves the window alone, and Fold over `b :: bs` starts with the update by `b`. -/
theorem crcByteThenCrcBufIsOnePass : Obligations.CrcByteThenCrcBufIsOnePass := by
  unfold Obligations.CrcByteThenCrcBufIsOnePass
  intro s u b bs hdin hs hu hacc
  refine ⟨_, _, _, exec_crcByte s, exec_crcBuf_of_windowIs (by exact hs), exec_crcBuf_of_windowIs hu, ?_⟩
  change crcFold (crcUpd s.acc s.din) bs = crcFold u.acc (b :: bs)
  rw [hdin, hacc]
  rfl

end Sys2Proof.Machine

/-! The chunk-record frame (42_frame.md): each outcome of SLICE, DECODE, NEXT and CONSTRUCT with its exact next
state. -/

namespace Sys2Proof.Machine

/-! ## SliceCore and DecodeCore over windows that hold no frame (42_frame.md R143, R144) -/

theorem sliceCore_of_short {s : State} {b a : Nat} (ha : a < 12) :
    sliceCore s b a = ⟨false, .error { kind := .notEnoughBytes, info0 := a, info1 := 12 }⟩ :=
  if_pos ha

theorem decodeCore_of_short {s : State} {b a : Nat} (ha : a < 12) :
    decodeCore s b a = ⟨false, .error { kind := .notEnoughBytes, info0 := a, info1 := 12 }⟩ :=
  if_pos ha

section
variable {s : State} {b n a : Nat} (ha : 12 ≤ a) (hh : s.holds b (bytesBe32 n))
include ha hh

theorem sliceCore_of_long (hn : n < 2 ^ 32) (hlong : a < 12 + n) :
    sliceCore s b a = ⟨false, .error { kind := .lengthTooLarge, info0 := 12 + n, info1 := a }⟩ := by
  obtain ⟨hlen, hwritten⟩ := lengthField_of_holds hn hh
  rcases sliceCore_cases s b a with ⟨hlt, -⟩ | ⟨m, rfl, -, -, he⟩ | ⟨m, rfl, hle, -⟩
  · omega
  · rw [he, hlen, hwritten]
  · omega

theorem decodeCore_of_long (hn : n < 2 ^ 31) (hlong : a < 12 + n) :
    decodeCore s b a = ⟨false, .error { kind := .lengthTooLarge, info0 := 12 + n, info1 := a }⟩ := by
  obtain ⟨hlen, hwritten⟩ := lengthField_of_holds (by omega) hh
  rcases decodeCore_cases s b a with ⟨hlt, -⟩ | ⟨m, rfl, -, hlim, -⟩ | ⟨m, rfl, -, -, -, he⟩ | ⟨m, rfl, -, hlt, -⟩ |
    ⟨m, rfl, -, heq, -⟩
  · omega
  · omega
  · rw [he, hlen, hwritten]
  · omega
  · omega

theorem decodeCore_of_trailing (hn : n < 2 ^ 31) (htrail : 12 + n < a) :
    decodeCore s b a = ⟨false, .error { kind := .remainingBytes, info0 := a - (12 + n), info1 := 0 }⟩ := by
  obtain ⟨hlen, hwritten⟩ := lengthField_of_holds (by omega) hh
  rcases decodeCore_cases s b a with ⟨hlt, -⟩ | ⟨m, rfl, -, hlim, -⟩ | ⟨m, rfl, -, -, hlt, -⟩ | ⟨m, rfl, -, -, he⟩ |
    ⟨m, rfl, -, heq, -⟩
  · omega
  · omega
  · omega
  · rw [he, hlen, hwritten]
  · omega

end

/-! ## The commands from what the cores answer (42_frame.md R145 to R147) -/

section
variable {s : State} (hf : s.windowFits)
include hf

theorem sliceResult_of_error {u : Bool} {e : CmdError}
    (hc : sliceCore s s.base.toNat s.avail.toNat = ⟨u, .error e⟩) : sliceResult s = ⟨u, .error e⟩ := by
  simp only [sliceResult, State.windowCheck_of_fits hf, hc]

theorem sliceResult_of_ok {u : Bool} {n sp : Nat}
    (hc : sliceCore s s.base.toNat s.avail.toNat = ⟨u, .ok (n, sp)⟩) :
    sliceResult s = ⟨u, .ok ({}, { s with len := BitVec.ofNat 32 n, span := BitVec.ofNat 32 sp })⟩ := by
  simp only [sliceResult, State.windowCheck_of_fits hf, hc]

theorem decodeResult_of_error {u : Bool} {e : CmdError}
    (hd : decodeCore s s.base.toNat s.avail.toNat = ⟨u, .error e⟩) : decodeResult s = ⟨u, .error e⟩ := by
  simp only [decodeResult, State.windowCheck_of_fits hf, hd]

theorem decodeResult_of_ok {u : Bool} {f : FrameRecord}
    (hd : decodeCore s s.base.toNat s.avail.toNat = ⟨u, .ok f⟩) :
    decodeResult s = ⟨u, .ok ({ crcMatch := true, setTv := true }, s.withRecord s.base.toNat f)⟩ := by
  simp only [decodeResult, State.windowCheck_of_fits hf, hd]

theorem nextResult_of_empty (h0 : s.avail.toNat = 0) : nextResult s = ⟨false, .ok ({ eos := true }, s)⟩ := by
  simp only [nextResult, State.windowCheck_of_fits hf, if_pos h0]

theorem nextResult_of_slice_error {u : Bool} {e : CmdError} (h0 : s.avail.toNat ≠ 0)
    (hc : sliceCore s s.base.toNat s.avail.toNat = ⟨u, .error e⟩) :
    nextResult s = ⟨u, .error { e with stage := 1 }⟩ := by
  simp only [nextResult, State.windowCheck_of_fits hf, if_neg h0, hc]

section
variable {u u' : Bool} {n sp : Nat} (h0 : s.avail.toNat ≠ 0)
  (hc : sliceCore s s.base.toNat s.avail.toNat = ⟨u, .ok (n, sp)⟩)
include h0 hc

theorem nextResult_of_decode_error {e : CmdError} (hd : decodeCore s s.base.toNat sp = ⟨u', .error e⟩) :
    nextResult s = ⟨u || u', .error { e with stage := 2 }⟩ := by
  simp only [nextResult, State.windowCheck_of_fits hf, if_neg h0, hc, hd]

theorem nextResult_of_decode_ok {f : FrameRecord} (hd : decodeCore s s.base.toNat sp = ⟨u', .ok f⟩) :
    nextResult s = ⟨u || u', .ok ({ crcMatch := true, setTv := true },
      { s.withRecord s.base.toNat f with base := BitVec.ofNat 32 (s.base.toNat + f.span)
                                         avail := BitVec.ofNat 32 (s.avail.toNat - f.span) })⟩ := by
  simp only [nextResult, State.windowCheck_of_fits hf, if_neg h0, hc, hd]

end

end

/-! ## SLICE (42_frame.md R145) -/

/-- Settles O13, by what SliceCore answers. -/
theorem sliceFindsTheSpan : Obligations.SliceFindsTheSpan := by
  unfold Obligations.SliceFindsTheSpan
  refine ⟨fun s hf => ?_, fun s hf ha => ?_, fun s n hf ha hn hh hlong => ?_, fun s n hf hn hh hle => ?_⟩
  · exact exec_of_error (cmdResult_of_not_fits (i := .slice) rfl hf) (by simp [kindCode, opcodeOf])
  · have hc := sliceResult_of_error hf (sliceCore_of_short ha)
    exact exec_of_error (i := .slice) hc (by simp [kindCode, opcodeOf])
  · have hc := sliceResult_of_error hf (sliceCore_of_long ha hh hn hlong)
    exact exec_of_error (i := .slice) hc (by simp [kindCode, opcodeOf])
  · exact exec_of_ok (i := .slice) (sliceResult_of_ok hf (sliceCore_of_holds hn hh hle))

/-! ## DECODE (42_frame.md R146) -/

/-- A window that is a frame image has its span (42_frame.md R141, R149). -/
theorem State.avail_of_windowIs_frame {s : State} {t d : List Byte} {c : Word} (ht : t.length = 4)
    (hw : s.windowIs (frameImage d.length t d c)) : s.avail.toNat = 12 + d.length := by
  obtain ⟨-, hlen, -⟩ := hw
  rw [← hlen, frameImage_length c ht]

/-- DECODE of a written frame whose trailer is not its checksum (42_frame.md R146). -/
theorem exec_decode_of_badCrc {s : State} {t d : List Byte} {c : Word} (ht : t.length = 4) (hd : d.length < 2 ^ 31)
    (hw : s.windowIs (frameImage d.length t d c)) (hc : c ≠ checksum (t ++ d)) :
    exec .decode s = .next (s.afterError 0x00310006 c.toNat (checksum (t ++ d)).toNat) := by
  have ha := State.avail_of_windowIs_frame ht hw
  obtain ⟨hf, -, hh⟩ := hw
  have hcore := decodeResult_of_error hf (by rw [ha]; exact decodeCore_of_badCrc ht hd hh hc)
  exact exec_of_error (i := .decode) hcore (by simp [kindCode, opcodeOf])

/-- DECODE of the written image of a valid record (42_frame.md R146). -/
theorem exec_decode_of_valid {s : State} {t d : List Byte} (hv : ValidRecord t d)
    (hw : s.windowIs (frameImage d.length t d (checksum (t ++ d)))) :
    exec .decode s = .next (State.finish { crcMatch := true, setTv := true } (s.withRecord s.base.toNat
      ⟨d.length, 12 + d.length, t, checksum (t ++ d), checksum (t ++ d)⟩)) := by
  have ha := State.avail_of_windowIs_frame hv.1.1 hw
  obtain ⟨hf, -, hh⟩ := hw
  exact exec_of_ok (i := .decode) (decodeResult_of_ok hf (by rw [ha]; exact decodeCore_of_valid hv hh))

/-- Settles O14, by what DecodeCore answers. -/
theorem decodeChecksOneRecord : Obligations.DecodeChecksOneRecord := by
  unfold Obligations.DecodeChecksOneRecord
  refine ⟨fun s hf => ?_, fun s hf ha => ?_, fun s n hf ha hn hh hlim => ?_, fun s n hf ha hn hh hlong => ?_,
    fun s n hf ha hn hh htrail => ?_, fun s t d c ht hd hw hc => exec_decode_of_badCrc ht hd hw hc,
    fun s p r d x ht hd hw hp hx => ?_, fun s t d hv hw => exec_decode_of_valid hv hw⟩
  · exact exec_of_error (cmdResult_of_not_fits (i := .decode) rfl hf) (by simp [kindCode, opcodeOf])
  · have hc := decodeResult_of_error hf (decodeCore_of_short ha)
    exact exec_of_error (i := .decode) hc (by simp [kindCode, opcodeOf])
  · have hc := decodeResult_of_error hf (decodeCore_of_limit ha hn hh hlim)
    exact exec_of_error (i := .decode) hc (by simp [kindCode, opcodeOf])
  · have hc := decodeResult_of_error hf (decodeCore_of_long ha hh hn hlong)
    exact exec_of_error (i := .decode) hc (by simp [kindCode, opcodeOf])
  · have hc := decodeResult_of_error hf (decodeCore_of_trailing ha hh hn htrail)
    exact exec_of_error (i := .decode) hc (by simp [kindCode, opcodeOf])
  · have ha := State.avail_of_windowIs_frame ht hw
    obtain ⟨hf, -, hh⟩ := hw
    have hcore := decodeResult_of_error hf (by rw [ha]; exact decodeCore_of_badType ht hd hh hp hx)
    exact exec_of_error (i := .decode) hcore (by simp [kindCode, opcodeOf])

/-! ## NEXT (42_frame.md R147) -/

/-- SliceCore over a window that begins with a written frame (42_frame.md R143). -/
theorem sliceCore_of_frame {s : State} {b a : Nat} {t d : List Byte} {c : Word} (hd : d.length < 2 ^ 31)
    (hle : 12 + d.length ≤ a) (hh : s.holds b (frameImage d.length t d c)) :
    sliceCore s b a = ⟨false, .ok (d.length, 12 + d.length)⟩ := by
  simp only [frameImage, State.holds_append] at hh
  obtain ⟨⟨⟨hlen, -⟩, -⟩, -⟩ := hh
  exact sliceCore_of_holds (by omega) hlen hle

/-- NEXT over a window that begins with the written image of a valid record (42_frame.md R147). -/
theorem exec_next_of_valid {s : State} {t d : List Byte} (hv : ValidRecord t d) (hf : s.windowFits)
    (hle : 12 + d.length ≤ s.avail.toNat)
    (hh : s.holds s.base.toNat (frameImage d.length t d (checksum (t ++ d)))) :
    exec .next s = .next (State.finish { crcMatch := true, setTv := true }
      { s.withRecord s.base.toNat ⟨d.length, 12 + d.length, t, checksum (t ++ d), checksum (t ++ d)⟩ with
          base := BitVec.ofNat 32 (s.base.toNat + (12 + d.length))
          avail := BitVec.ofNat 32 (s.avail.toNat - (12 + d.length)) }) :=
  exec_of_ok (i := .next) (nextResult_of_decode_ok hf (by omega) (sliceCore_of_frame hv.2 hle hh)
    (decodeCore_of_valid hv hh))

/-- Settles O15, by what SliceCore answers on the window and DecodeCore on the sliced span. -/
theorem nextWalksOneRecord : Obligations.NextWalksOneRecord := by
  unfold Obligations.NextWalksOneRecord
  refine ⟨fun s hf => ?_, fun s hf h0 => ?_, fun s hf h0 ha => ?_, fun s n hf ha hn hh hlong => ?_,
    fun s n hf hn hh hle hlim => ?_, fun s t d c ht hd hf hle hh hc => ?_,
    fun s p r d x ht hd hf hle hh hp hx => ?_, fun s t d hv hf hle hh => exec_next_of_valid hv hf hle hh⟩
  · exact exec_of_error (cmdResult_of_not_fits (i := .next) rfl hf) (by simp [kindCode, opcodeOf])
  · exact exec_of_ok (i := .next) (nextResult_of_empty hf (by rw [h0]; rfl))
  · have h0' : s.avail.toNat ≠ 0 := fun h => h0 (BitVec.eq_of_toNat_eq h)
    have hc := nextResult_of_slice_error hf h0' (sliceCore_of_short ha)
    exact exec_of_error (i := .next) hc (by simp [kindCode, opcodeOf])
  · have hc := nextResult_of_slice_error hf (by omega) (sliceCore_of_long ha hh hn hlong)
    exact exec_of_error (i := .next) hc (by simp [kindCode, opcodeOf])
  · have hd := decodeCore_of_limit (Nat.le_add_right 12 n) hn hh hlim
    have hc := nextResult_of_decode_error hf (by omega) (sliceCore_of_holds hn hh hle) hd
    exact exec_of_error (i := .next) hc (by simp [kindCode, opcodeOf])
  · have hcore := decodeCore_of_badCrc ht hd hh hc
    have hc := nextResult_of_decode_error hf (by omega) (sliceCore_of_frame hd hle hh) hcore
    exact exec_of_error (i := .next) hc (by simp [kindCode, opcodeOf])
  · have hcore := decodeCore_of_badType ht hd hh hp hx
    have hc := nextResult_of_decode_error hf (by omega) (sliceCore_of_frame hd hle hh) hcore
    exact exec_of_error (i := .next) hc (by simp [kindCode, opcodeOf])

/-! ## CONSTRUCT (42_frame.md R148) -/

section
variable {s : State} (hf : s.windowFits)
include hf

theorem constructResult_of_scan_some {i : Nat} {c : Byte} (ht : typeScan (typeBytes s.typeCode) = some (i, c)) :
    constructResult s =
      ⟨false, .error { kind := .invalidCharacter, info0 := i, info1 := c.toNat, wrapped := true, clearTv := true }⟩ := by
  simp only [constructResult, State.windowCheck_of_fits hf, ht]

theorem constructResult_of_limit (ht : typeScan (typeBytes s.typeCode) = none) (hlim : 2 ^ 31 ≤ s.avail.toNat) :
    constructResult s =
      ⟨false, .error { kind := .lengthTooLarge, info0 := 12 + s.avail.toNat, info1 := s.avail.toNat, sub := true }⟩ := by
  simp only [constructResult, State.windowCheck_of_fits hf, ht,
    if_pos (show s.avail.toNat ≥ Config.lenLimit from hlim)]
  rfl

end

/-- CONSTRUCT over written data, for a TYPE of four letters (42_frame.md R148). -/
theorem constructResult_of_windowIs {s : State} {d : List Byte} (hw : s.windowIs d)
    (ht : typeScan (typeBytes s.typeCode) = none) (hlim : d.length < 2 ^ 31) :
    constructResult s = ⟨false, .ok ({ setTv := true },
      { s with len := BitVec.ofNat 32 d.length, span := BitVec.ofNat 32 (12 + d.length)
               crcCalc := checksum (typeBytes s.typeCode ++ d), dataOff := s.base })⟩ := by
  have hread := State.memRead_of_windowIs hw
  have hwritten := State.unwritten_of_windowIs hw
  obtain ⟨hf, hlen, -⟩ := hw
  rcases constructResult_cases s with ⟨hno, -⟩ | ⟨_, _, _, hscan, -⟩ | ⟨_, _, hge, -⟩ | ⟨_, _, _, he⟩
  · exact absurd hf hno
  · rw [ht] at hscan
    exact nomatch hscan
  · omega
  · simp only [he, hread, hwritten, hlen, BitVec.ofNat_toNat, BitVec.setWidth_eq]

/-- Settles O16: the window check, the letter test and the length limit answer in this order. -/
theorem constructComputesTheRecord : Obligations.ConstructComputesTheRecord := by
  unfold Obligations.ConstructComputesTheRecord
  refine ⟨fun s hf => ?_, fun s i hf hi hbefore hbad => ?_, fun s hf hletters hlim => ?_,
    fun s d hw hletters hlim => ?_⟩
  · exact exec_of_error (cmdResult_of_not_fits (i := .construct) rfl hf) (by simp [kindCode, opcodeOf])
  · have hc := constructResult_of_scan_some hf (typeScan_typeBytes_some hi hbefore hbad)
    exact exec_of_error (i := .construct) hc (by simp [kindCode, opcodeOf])
  · have hc := constructResult_of_limit hf (typeScan_typeBytes_none_iff.2 hletters) hlim
    exact exec_of_error (i := .construct) hc (by simp [kindCode, opcodeOf])
  · exact exec_of_ok (i := .construct) (constructResult_of_windowIs hw (typeScan_typeBytes_none_iff.2 hletters) hlim)

end Sys2Proof.Machine

/-! Frames of the stream (42_frame.md R150 to R153): what DECODE and NEXT accept, the round trip, the single-bit flip,
and NEXT as SLICE, DECODE and the advance. -/

namespace Sys2Proof.Machine

/-! ## What DECODE and NEXT accept (42_frame.md R152) -/

/-- What DecodeCore accepts is the image of a valid record (42_frame.md R149). -/
theorem exists_validRecord_of_decodeCore_ok {s : State} {b a : Nat} {u : Bool} {f : FrameRecord}
    (h : decodeCore s b a = ⟨u, .ok f⟩) : ∃ ty d, ValidRecord ty d ∧
      s.memRead b a = frameImage d.length ty d (checksum (ty ++ d)) := by
  have himage := decodeCore_ok_image h
  obtain ⟨-, -, -, hlen, htype, hletters, -, -, hcrc, -⟩ := decodeCore_ok h
  refine ⟨f.type, s.memRead (b + 8) f.len, ⟨⟨htype, hletters⟩, ?_⟩, ?_⟩
  · rwa [State.memRead_length]
  · rw [State.memRead_length, ← hcrc, himage]

/-- Settles O38: what DecodeCore accepts is a valid record's image, and DECODE of such an image succeeds. -/
theorem decodeAcceptsExactlyTheValidRecords : Obligations.DecodeAcceptsExactlyTheValidRecords := by
  unfold Obligations.DecodeAcceptsExactlyTheValidRecords
  intro s bs hw
  constructor
  · rintro ⟨t, hstep, hok⟩
    rcases exec_cases hstep with ⟨e, -, rfl⟩ | ⟨o, staged, hr, -⟩
    · exact nomatch hok
    rcases decodeResult_cases s with ⟨-, he⟩ | ⟨u, e, -, -, he⟩ | ⟨u, f, -, hd, -⟩
    · simp [cmdResult, he] at hr
    · simp [cmdResult, he] at hr
    · rw [← State.memRead_of_windowIs hw]
      exact exists_validRecord_of_decodeCore_ok hd
  · rintro ⟨ty, d, hv, rfl⟩
    exact ⟨_, exec_decode_of_valid hv hw, rfl⟩

/-- Settles O39: what NEXT decodes is a valid record's image at the start of the window, and NEXT of such a window
succeeds. -/
theorem nextDecodesExactlyALeadingRecord : Obligations.NextDecodesExactlyALeadingRecord := by
  unfold Obligations.NextDecodesExactlyALeadingRecord
  intro s bs hw
  constructor
  · rintro ⟨t, hstep, hok, heos⟩
    rcases exec_cases hstep with ⟨e, -, rfl⟩ | ⟨o, staged, hr, rfl⟩
    · exact nomatch hok
    rcases nextResult_cases s with ⟨-, he⟩ | ⟨-, -, he⟩ | ⟨_, _, -, -, -, he⟩ | ⟨_, _, _, _, _, -, -, -, -, he⟩ |
      ⟨u, n, sp, u', f, -, -, hc, hd, -⟩
    · simp [cmdResult, he] at hr
    · simp only [cmdResult, he, Except.ok.injEq, Prod.mk.injEq] at hr
      obtain ⟨rfl, -⟩ := hr
      exact nomatch heos
    · simp [cmdResult, he] at hr
    · simp [cmdResult, he] at hr
    · obtain ⟨-, -, hle⟩ := sliceCore_ok hc
      obtain ⟨ty, d, hv, himage⟩ := exists_validRecord_of_decodeCore_ok hd
      refine ⟨ty, d, s.memRead (s.base.toNat + sp) (s.avail.toNat - sp), hv, ?_⟩
      rw [← himage, ← State.memRead_add, Nat.add_sub_cancel' hle, State.memRead_of_windowIs hw]
  · rintro ⟨ty, d, rest, hv, rfl⟩
    obtain ⟨hf, hlen, hh⟩ := hw
    rw [List.length_append, frameImage_length _ hv.1.1] at hlen
    exact ⟨_, exec_next_of_valid hv hf (by omega) (State.holds_append.1 hh).1, rfl, rfl⟩

/-! ## The round trip (42_frame.md R150) -/

/-- TYPE is the value of its bytes (10_state.md R40). -/
theorem ofNat_be32_typeBytes (t : Word) : BitVec.ofNat 32 (be32 (typeBytes t)) = t := by
  rw [typeBytes, be32_bytesBe32 t.isLt, BitVec.ofNat_toNat, BitVec.setWidth_eq]

/-- A CONSTRUCT that succeeds over written data had a valid record, whose checksum it computed (42_frame.md R148). -/
theorem validRecord_of_exec_construct {s t : State} {d : List Byte} (hw : s.windowIs d)
    (hstep : exec .construct s = .next t) (hok : t.status.ok = true) :
    ValidRecord (typeBytes s.typeCode) d ∧ t.crcCalc = checksum (typeBytes s.typeCode ++ d) := by
  rcases exec_cases hstep with ⟨e, -, rfl⟩ | ⟨o, staged, hr, rfl⟩
  · exact nomatch hok
  have hread := State.memRead_of_windowIs hw
  obtain ⟨-, hlen, -⟩ := hw
  rcases constructResult_cases s with ⟨-, he⟩ | ⟨_, _, -, -, he⟩ | ⟨-, -, -, he⟩ | ⟨-, hscan, hlim, he⟩
  · simp [cmdResult, he] at hr
  · simp [cmdResult, he] at hr
  · simp [cmdResult, he] at hr
  · simp only [cmdResult, he, hread, Except.ok.injEq, Prod.mk.injEq] at hr
    obtain ⟨-, rfl⟩ := hr
    exact ⟨⟨⟨typeBytes_length _, (typeScan_eq_none_iff _).1 hscan⟩, hlen ▸ hlim⟩, rfl⟩

/-- The data of a held frame image stand 8 bytes behind its start (42_frame.md R140). -/
theorem State.holds_data_of_frame {s : State} {b : Nat} {t d : List Byte} {c : Word} (ht : t.length = 4)
    (h : s.holds b (frameImage d.length t d c)) : s.holds (b + 8) d := by
  simp only [frameImage, State.holds_append, List.length_append, bytesBe32_length, ht] at h
  obtain ⟨⟨-, hdata⟩, -⟩ := h
  exact hdata

/-- Settles O40: CONSTRUCT's success makes the record valid, and DECODE of its image is `exec_decode_of_valid`. -/
theorem constructThenDecodeRoundTrips : Obligations.ConstructThenDecodeRoundTrips := by
  unfold Obligations.ConstructThenDecodeRoundTrips
  rintro s t u d k hw hstep hok rfl havail hf hh
  obtain ⟨hv, hcrc⟩ := validRecord_of_exec_construct hw hstep hok
  rw [hcrc] at hh ⊢
  have hframe : u.windowIs (frameImage d.length (typeBytes s.typeCode) d (checksum (typeBytes s.typeCode ++ d))) :=
    ⟨hf, by rw [frameImage_length _ hv.1.1, havail], hh⟩
  have hoff : (BitVec.ofNat 32 (u.base.toNat + 8)).toNat = u.base.toNat + 8 := by
    have := u.params.ibufSize.isLt
    rw [BitVec.toNat_ofNat, Nat.mod_eq_of_lt (by omega)]
  have hlen : (BitVec.ofNat 32 d.length).toNat = d.length := by
    rw [BitVec.toNat_ofNat, Nat.mod_eq_of_lt (by have := hv.2; omega)]
  refine ⟨_, exec_decode_of_valid hv hframe, rfl, hlen, ofNat_be32_typeBytes _, rfl, rfl, hoff, ?_⟩
  change u.holds (BitVec.ofNat 32 (u.base.toNat + 8)).toNat d
  rw [hoff]
  exact State.holds_data_of_frame hv.1.1 hh

/-! ## The single-bit flip (42_frame.md R151) -/

theorem crcUpd_left_injective {a b : Word} {x : Byte} (h : crcUpd a x = crcUpd b x) : a = b := by
  rw [crcUpd_eq_crcSteps, crcUpd_eq_crcSteps] at h
  exact (BitVec.xor_left_inj _).1 (crcSteps_injective h)

theorem crcUpd_right_injective {a : Word} {x y : Byte} (h : crcUpd a x = crcUpd a y) : x = y := by
  rw [crcUpd_eq_crcSteps, crcUpd_eq_crcSteps] at h
  have hwide := congrArg (BitVec.setWidth 8) ((BitVec.xor_right_inj _).1 (crcSteps_injective h))
  simpa using hwide

theorem crcFold_injective {bs : List Byte} {a b : Word} (h : crcFold a bs = crcFold b bs) : a = b := by
  induction bs generalizing a b with
  | nil => exact h
  | cons x bs ih => exact crcUpd_left_injective (ih h)

/-- Two sequences that differ in one byte have two checksums. -/
theorem eq_of_checksum_eq {p r : List Byte} {x y : Byte} (h : checksum (p ++ x :: r) = checksum (p ++ y :: r)) :
    x = y := by
  have hfold := (BitVec.xor_left_inj Config.crcXorOut).1 h
  rw [crcFold_append, crcFold_append] at hfold
  exact crcUpd_right_injective (crcFold_injective (bs := r) hfold)

theorem xor_twoPow_ne (x : Byte) {bit : Nat} (hbit : bit < 8) : x ^^^ BitVec.twoPow 8 bit ≠ x := by
  intro h
  have hflip := congrArg (fun b : Byte => b.getLsbD bit) h
  simp [hbit] at hflip

/-- Length, type and data together, and trailer make a frame image, its type the first four bytes. -/
theorem frameImage_take_drop {n : Nat} {q : List Byte} {c : Word} (hq : q.length = 4 + n) :
    bytesBe32 n ++ q ++ bytesBe32 c.toNat = frameImage (q.drop 4).length (q.take 4) (q.drop 4) c := by
  have hn : (q.drop 4).length = n := by rw [List.length_drop, hq, Nat.add_sub_cancel_left]
  rw [frameImage, hn, List.append_assoc _ (q.take 4), List.take_append_drop]

/-- Settles O41: each update of the CRC is injective in the accumulator and in the byte, so one changed byte changes the
checksum. -/
theorem anySingleBitFlipIsAnInvalidCrc : Obligations.AnySingleBitFlipIsAnInvalidCrc := by
  unfold Obligations.AnySingleBitFlipIsAnInvalidCrc
  intro s ty d x p r bit hv hsplit hbit hw
  obtain ⟨⟨hty, -⟩, hd⟩ := hv
  generalize hq : p ++ (x ^^^ BitVec.twoPow 8 bit) :: r = q at hw ⊢
  have hlen : q.length = 4 + d.length := by
    rw [← hty, ← List.length_append, hsplit, ← hq, List.length_append, List.length_append]
    rfl
  have hne : checksum (ty ++ d) ≠ checksum q := by
    rw [hsplit, ← hq]
    exact fun h => xor_twoPow_ne x hbit (eq_of_checksum_eq h).symm
  rw [frameImage_take_drop hlen] at hw
  have hflipped := exec_decode_of_badCrc (by simp [hlen])
    (by rwa [List.length_drop, hlen, Nat.add_sub_cancel_left]) hw (by rwa [List.take_append_drop])
  rwa [List.take_append_drop] at hflipped

/-! ## NEXT is SLICE, then DECODE, then the advance (42_frame.md R153) -/

/-- A command that fails without an unwritten read raises its error (60_exceptions.md R202). -/
theorem exec_of_error_raise {i : Instr} {s : State} {e : CmdError} (h : cmdResult i s = ⟨false, .error e⟩) :
    exec i s = .next (State.raise (opcodeOf i) e s) := by
  rw [exec_eq_complete, h, State.complete_error, State.noteUnwritten_false]

theorem exists_sliceCore_of_written {s : State} {b a : Nat} (h : s.unwritten b a = false) :
    ∃ r, sliceCore s b a = ⟨false, r⟩ :=
  ⟨_, congrArg (CoreResult.mk · _) (sliceCore_written h)⟩

theorem exists_decodeCore_of_written {s : State} {b a : Nat} (h : s.unwritten b a = false) :
    ∃ r, decodeCore s b a = ⟨false, r⟩ :=
  ⟨_, congrArg (CoreResult.mk · _) (decodeCore_written h)⟩

/-- ERR of the slice stage, from SLICE's own ERR (42_frame.md R147). -/
theorem errWord_stage_one {opc : Byte} {e : CmdError} (hwrapped : e.wrapped = false) (hsub : e.sub = false) :
    errWord (opcodeOf .next) { e with stage := 1 } =
      BitVec.ofNat 32 ((errKindField (errWord opc e)).toNat + 2 ^ 10 + 2 ^ 16 * 0x32) := by
  rw [errWord, packErr_eq_sum, errWord, errKindField_packErr]
  simp [hwrapped, hsub, opcodeOf]

/-- ERR of the decode stage, from DECODE's own ERR (42_frame.md R147). -/
theorem errWord_stage_two {opc : Byte} {e : CmdError} (hstage : e.stage = 0) :
    errWord (opcodeOf .next) { e with stage := 2 } =
      BitVec.ofNat 32 ((errWord opc e).toNat % 2 ^ 10 + 2 ^ 11 + 2 ^ 16 * 0x32) := by
  have hlow : (errWord opc e).toNat % 2 ^ 10 =
      (kindCode e.kind).toNat + 2 ^ 8 * e.wrapped.toNat + 2 ^ 9 * e.sub.toNat := by
    have := (kindCode e.kind).isLt; have := e.wrapped.toNat_le; have := e.sub.toNat_le
    rw [errWord, packErr_toNat, hstage, show (0 : BitVec 2).toNat = 0 from rfl]
    omega
  rw [hlow, errWord, packErr_eq_sum]
  rfl

/-- `s` after a SLICE that found `n` data bytes, with AVAIL then cut to the span. -/
def State.onSpan (s : State) (n : Nat) : State :=
  { State.finish {} { s with len := BitVec.ofNat 32 n, span := BitVec.ofNat 32 (12 + n) } with
      avail := BitVec.ofNat 32 (12 + n) }

/-- The advance of BASE and AVAIL as a sum and a difference of registers (42_frame.md R147). -/
theorem ofNat_add_eq (b : Word) (k : Nat) : BitVec.ofNat 32 (b.toNat + k) = b + BitVec.ofNat 32 k := by
  rw [BitVec.ofNat_add, BitVec.ofNat_toNat, BitVec.setWidth_eq]

theorem ofNat_sub_eq {a : Word} {k : Nat} (hk : k ≤ a.toNat) :
    BitVec.ofNat 32 (a.toNat - k) = a - BitVec.ofNat 32 k := by
  rw [← BitVec.ofNat_sub_ofNat_of_le _ _ (Nat.lt_of_le_of_lt hk a.isLt) hk, BitVec.ofNat_toNat, BitVec.setWidth_eq]

section
variable {s : State} {n : Nat} (hle : 12 + n ≤ s.avail.toNat)
include hle

theorem State.onSpan_avail_toNat : (s.onSpan n).avail.toNat = 12 + n :=
  Nat.mod_eq_of_lt (Nat.lt_of_le_of_lt hle s.avail.isLt)

theorem State.onSpan_fits (hf : s.windowFits) : (s.onSpan n).windowFits := by
  change s.base.toNat + (s.onSpan n).avail.toNat ≤ s.params.ibufSize.toNat
  rw [State.onSpan_avail_toNat hle]
  omega

/-- DecodeCore reads the same bytes after SLICE as before it. -/
theorem State.onSpan_decodeCore :
    decodeCore (s.onSpan n) (s.onSpan n).base.toNat (s.onSpan n).avail.toNat = decodeCore s s.base.toNat (12 + n) := by
  rw [State.onSpan_avail_toNat hle]
  rfl

end

/-- Settles O42: each of NEXT's two stages is the core of the command it stands for, on the same bytes. -/
theorem nextIsSliceThenDecodeThenAdvance : Obligations.NextIsSliceThenDecodeThenAdvance := by
  unfold Obligations.NextIsSliceThenDecodeThenAdvance
  intro s s1 hf havail hw hslice
  have h0 : s.avail.toNat ≠ 0 := fun h => havail (BitVec.eq_of_toNat_eq h)
  have hbytes := windowWritten_iff.1 hw
  obtain ⟨e | ⟨n, sp⟩, hc⟩ := exists_sliceCore_of_written hbytes
  · obtain ⟨-, -, hwrapped, hsub, -⟩ := sliceCore_error hc
    rw [exec_of_error_raise (i := .slice) (sliceResult_of_error hf hc)] at hslice
    obtain rfl := Host.Outcome.next.inj hslice
    refine ⟨fun _ => ?_, nofun⟩
    rw [exec_of_error_raise (i := .next) (nextResult_of_slice_error hf h0 hc), State.raise_errReg,
      ← errWord_stage_one hwrapped hsub]
    rfl
  · obtain ⟨-, rfl, hle⟩ := sliceCore_ok hc
    rw [exec_of_ok (i := .slice) (sliceResult_of_ok hf hc)] at hslice
    obtain rfl := Host.Outcome.next.inj hslice
    have hframe := unwritten_sub (m := 12 + n) hbytes (Nat.le_refl _) (by omega)
    have hfits := State.onSpan_fits hle hf
    have hcore := State.onSpan_decodeCore hle
    refine ⟨nofun, fun _ => ?_⟩
    obtain ⟨e | f, hd⟩ := exists_decodeCore_of_written hframe
    · obtain ⟨-, hstage, -⟩ := decodeCore_error hd
      have herr := decodeResult_of_error hfits (hcore.trans hd)
      refine ⟨_, exec_of_error_raise (i := .decode) herr, fun _ => ?_, nofun⟩
      rw [exec_of_error_raise (i := .next) (nextResult_of_decode_error hf h0 hc hd), State.raise_errReg,
        ← errWord_stage_two hstage]
      rfl
    · obtain ⟨-, hlen, -⟩ := decodeCore_ok hd
      refine ⟨_, exec_of_ok (i := .decode) (decodeResult_of_ok hfits (hcore.trans hd)), nofun, fun _ => ?_⟩
      rw [exec_of_ok (i := .next) (nextResult_of_decode_ok hf h0 hc hd), hlen, ofNat_add_eq, ofNat_sub_eq hle]
      rfl

end Sys2Proof.Machine

/-! The control commands and the illegal word (43_control.md R180 to R182). -/

namespace Sys2Proof.Machine

/-! ## NOP and CLEAR (43_control.md R180, R181) -/

/-- Settles O6: NOP has one outcome and stages nothing. -/
theorem nopSetsOnlyStatus : Obligations.NopSetsOnlyStatus := by
  unfold Obligations.NopSetsOnlyStatus
  exact fun s => exec_of_ok (i := .nop) rfl

/-- Settles O7: CLEAR has one outcome, with ERR_STICKY staged beside the error record. -/
theorem clearDiscardsTheErrorRecord : Obligations.ClearDiscardsTheErrorRecord := by
  unfold Obligations.ClearDiscardsTheErrorRecord
  exact fun s => exec_of_ok (i := .clear) rfl

/-! ## The illegal word (43_control.md R182) -/

/-- The decoder rejects a word that is no command's (30_encoding.md R85). -/
theorem exists_decode_reject {w : Word} (h : ∀ i, w ≠ encode i) : ∃ r, decode w = .error r := by
  rcases hd : decode w with r | i
  · exact ⟨r, rfl⟩
  · exact absurd (eq_encode_of_decode hd) (h i)

/-- ILLEGAL_CMD(w, 0) in numbers: KIND 0x07, and OPC the low byte of the word (60_exceptions.md R202). -/
theorem State.raise_illegalError (w : Word) (s : State) :
    State.raise (opcField w) (illegalError w) s = s.afterError (0x07 + 2 ^ 16 * (w.toNat % 256)) w.toNat 0 := by
  have herr : errWord (opcField w) (illegalError w) = BitVec.ofNat 32 (0x07 + 2 ^ 16 * (w.toNat % 256)) := by
    rw [errWord, packErr_eq_sum, opcField_toNat]
    rfl
  rw [State.raise, herr]
  rfl

/-- Settles O3: the CMD write executes the word, which the decoder rejects, and the rejection is raised. -/
theorem illegalWordRaisesIllegalCmd : Obligations.IllegalWordRaisesIllegalCmd := by
  unfold Obligations.IllegalWordRaisesIllegalCmd
  intro s d rest hp hillegal
  obtain ⟨r, hd⟩ := exists_decode_reject hillegal
  rw [step_writeReg hp (by decide) (by decide), ← State.raise_illegalError]
  exact executeWord_of_reject hd _

end Sys2Proof.Machine

/-! Errors and model faults (60_exceptions.md R201 to R204, R219): every step goes on, a failed word writes the error
record alone, a success keeps it, and each command raises the kinds its row of R201 gives. -/

namespace Sys2Proof

/-- OPC of a command's word (30_encoding.md R80, R82). -/
theorem opcField_encode (i : Instr) : opcField (encode i) = opcodeOf i := by cases i <;> rfl

end Sys2Proof

namespace Sys2Proof.Machine

/-! ## No step stops, and none clears the fault flag (60_exceptions.md R219) -/

/-- Settles O5: the idle step answers its own state, and every host action answers a next state. -/
theorem everyStepAnswersNext : Obligations.EveryStepAnswersNext := by
  unfold Obligations.EveryStepAnswersNext
  intro s
  rcases hp : s.pending with _ | ⟨a, rest⟩
  · exact ⟨s, step_nil hp⟩
  · rw [step_cons hp]
    exact exists_performAction_next a _

/-- A command word sets the fault flag or leaves it: only an unwritten read touches it (20_memory.md R62). -/
theorem executeWord_keeps_faulted {w : Word} {s t : State} (hs : s.faulted = true) (h : executeWord w s = .next t) :
    t.faulted = true := by
  rcases executeWord_cases h with ⟨i, -, hx⟩ | ⟨r, -, rfl⟩
  · rw [exec_faulted hx, hs, Bool.or_true]
  · exact hs

theorem State.writeReg_faulted (s : State) (v : Word) (r : Reg) : (s.writeReg v r).faulted = s.faulted := by
  cases r <;> rfl

theorem hostReadIbuf_keeps_faulted {s : State} (hs : s.faulted = true) (k : Nat) :
    (hostReadIbuf k s).faulted = true := by
  rw [hostReadIbuf, State.noteUnwritten_faulted, State.observe_faulted, hs, Bool.or_true]

theorem performAction_keeps_faulted {a : HostAction} {s t : State} (hs : s.faulted = true)
    (h : performAction a s = .next t) : t.faulted = true := by
  rcases performAction_cases h with ⟨d, -, hx⟩ | ⟨o, d, -, -, -, ⟨r, -, rfl⟩ | ⟨-, rfl⟩⟩ | rfl | ⟨k, d, -, -, rfl⟩ |
    ⟨o, -, rfl⟩ | ⟨k, -, -, rfl⟩ | ⟨-, rfl⟩
  · exact executeWord_keeps_faulted hs hx
  · rw [State.writeReg_faulted, hs]
  · exact hs
  · exact State.refuseAccess_faulted s
  · exact hs
  · exact hs
  · exact hostReadIbuf_keeps_faulted hs k
  · exact hs

/-- Settles O31: no host action clears the flag; reset carries it over. -/
theorem faultFlagIsNeverCleared : Obligations.FaultFlagIsNeverCleared := by
  unfold Obligations.FaultFlagIsNeverCleared
  intro s t h hs
  rcases step_cases h with ⟨-, rfl⟩ | ⟨a, rest, -, ha⟩
  · exact hs
  · exact performAction_keeps_faulted (s := { s with pending := rest }) hs ha

/-! ## What a failure and a success write (60_exceptions.md R202 to R204) -/

/-- Settles O20: a word that leaves ERR = 1 went through `raise`, under the OPC of its own low byte. -/
theorem failedCommandWritesOnlyTheErrorRecord : Obligations.FailedCommandWritesOnlyTheErrorRecord := by
  unfold Obligations.FailedCommandWritesOnlyTheErrorRecord
  intro w s t h herr
  rcases executeWord_outcome h with ⟨i, o, staged, u, -, -, rfl⟩ | ⟨i, e, u, rfl, -, rfl⟩ | ⟨-, rfl⟩
  · exact nomatch herr
  · exact ⟨rfl, fun _ => rfl, (errOpcField_errWord _ e).trans (opcField_encode i).symm⟩
  · exact ⟨rfl, fun _ => rfl, errOpcField_errWord _ _⟩

/-- Settles O21: a command that leaves OK = 1 went through `finish`, and only CLEAR stages the error record. -/
theorem successKeepsTheErrorRecord : Obligations.SuccessKeepsTheErrorRecord := by
  unfold Obligations.SuccessKeepsTheErrorRecord
  intro i s t h hok hne
  rcases exec_cases h with ⟨e, -, rfl⟩ | ⟨o, staged, hr, rfl⟩
  · exact nomatch hok
  · have hsucc := succeeds_of_result hr
    obtain ⟨hreg, hinfo0, hinfo1⟩ := hsucc.recordKept hne
    refine ⟨hreg, hinfo0, hinfo1, ?_⟩
    change staged.status.errSticky = s.status.errSticky
    rw [hsucc.status, if_neg hne]

/-! ## The table of error kinds (60_exceptions.md R201) -/

/-- The rows of R201 with the commands that raise each kind; ILLEGAL_CMD is raised by no command. -/
def errorTable : List (ErrKind × Instr) :=
  [(.invalidLength, .typeParse), (.invalidCharacter, .typeCheck), (.invalidCharacter, .typeParse),
   (.invalidCharacter, .decode), (.invalidCharacter, .next), (.invalidCharacter, .construct),
   (.notEnoughBytes, .slice), (.notEnoughBytes, .decode), (.notEnoughBytes, .next),
   (.lengthTooLarge, .slice), (.lengthTooLarge, .decode), (.lengthTooLarge, .next), (.lengthTooLarge, .construct),
   (.remainingBytes, .decode), (.invalidCrc, .decode), (.invalidCrc, .next),
   (.badWindow, .typeParse), (.badWindow, .crcBuf), (.badWindow, .slice), (.badWindow, .decode), (.badWindow, .next),
   (.badWindow, .construct)]

/-- The kinds of DecodeCore's errors stand in the rows of DECODE (42_frame.md R144). -/
theorem decodeCore_error_mem_table {s : State} {b a : Nat} {u : Bool} {e : CmdError}
    (h : decodeCore s b a = ⟨u, .error e⟩) : (e.kind, .decode) ∈ errorTable := by
  obtain ⟨-, -, -, -, ⟨hwindow, hillegal, hlength⟩, -⟩ := decodeCore_error h
  cases hk : e.kind with
  | badWindow => exact absurd hk hwindow
  | illegalCmd => exact absurd hk hillegal
  | invalidLength => exact absurd hk hlength
  | invalidCharacter | notEnoughBytes | lengthTooLarge | remainingBytes | invalidCrc => decide

/-- DECODE's rows other than that of trailing bytes are NEXT's too (42_frame.md R147). -/
theorem mem_table_next_of_decode {k : ErrKind} (h : (k, .decode) ∈ errorTable) (hr : k ≠ .remainingBytes) :
    (k, .next) ∈ errorTable := by
  revert h hr
  cases k <;> decide

/-- The kind of a command's error stands in the command's rows, and WRAPPED marks the record commands'
INVALID_CHARACTER (60_exceptions.md R201, R206). -/
theorem cmdResult_error_kind {i : Instr} {s : State} {e : CmdError} (h : (cmdResult i s).result = .error e) :
    (e.kind, i) ∈ errorTable ∧
    (e.wrapped = true ↔ e.kind = .invalidCharacter ∧ (i = .decode ∨ i = .next ∨ i = .construct)) := by
  cases i <;> simp only [cmdResult] at h
  case nop | clear | crcInit | crcByte => simp at h
  case typeCheck =>
    rcases typeCheckResult_cases s with ⟨_, _, _, he⟩ | ⟨_, he⟩ <;> rw [he] at h <;> cases h
    simp [errorTable]
  case typeParse =>
    rcases typeParseResult_cases s with ⟨_, he⟩ | ⟨_, _, he⟩ | ⟨_, _, _, _, _, he⟩ | ⟨_, _, _, he⟩ <;>
      rw [he] at h <;> cases h <;> simp [errorTable]
  case crcBuf =>
    rcases crcBufResult_cases s with ⟨_, he⟩ | ⟨_, he⟩ <;> rw [he] at h <;> cases h
    simp [errorTable]
  case slice =>
    rcases sliceResult_cases s with ⟨_, he⟩ | ⟨_, _, _, hc, he⟩ | ⟨_, _, _, _, _, he⟩ <;> rw [he] at h <;> cases h
    · simp [errorTable]
    · obtain ⟨-, -, hw, -, hk | hk, -⟩ := sliceCore_error hc <;> simp [errorTable, hw, hk]
  case decode =>
    rcases decodeResult_cases s with ⟨_, he⟩ | ⟨_, _, _, hd, he⟩ | ⟨_, _, _, _, he⟩ <;> rw [he] at h <;> cases h
    · simp [errorTable]
    · obtain ⟨-, -, hw, -⟩ := decodeCore_error hd
      exact ⟨decodeCore_error_mem_table hd, by simp [hw]⟩
  case next =>
    rcases nextResult_cases s with ⟨_, he⟩ | ⟨_, _, he⟩ | ⟨_, _, _, _, hc, he⟩ | ⟨_, _, _, _, _, _, _, hc, hd, he⟩ |
      ⟨_, _, _, _, _, _, _, _, _, he⟩ <;> rw [he] at h <;> cases h
    · simp [errorTable]
    · obtain ⟨-, -, hw, -, hk | hk, -⟩ := sliceCore_error hc <;> simp [errorTable, hw, hk]
    · obtain ⟨rfl, rfl, -⟩ := sliceCore_ok hc
      obtain ⟨-, -, hw, -⟩ := decodeCore_error hd
      obtain ⟨-, hrest, -⟩ := decodeCore_span_error hd
      have hrow := decodeCore_error_mem_table hd
      exact ⟨mem_table_next_of_decode hrow hrest, by simp [hw]⟩
  case construct =>
    rcases constructResult_cases s with ⟨_, he⟩ | ⟨_, _, _, _, he⟩ | ⟨_, _, _, he⟩ | ⟨_, _, _, he⟩ <;>
      rw [he] at h <;> cases h <;> simp [errorTable]

/-- Each KIND code names one kind (60_exceptions.md R201). -/
theorem kindCode_injective {j k : ErrKind} (h : kindCode j = kindCode k) : j = k := by
  revert h
  cases j <;> cases k <;> decide

theorem kindCode_eq_iff {j k : ErrKind} {c : Byte} (hc : kindCode k = c) : kindCode j = c ↔ j = k :=
  ⟨fun h => kindCode_injective (h.trans hc.symm), fun h => h ▸ hc⟩

/-- Settles O28: the error record is that of the command's error, whose kind, WRAPPED, SUB and STAGE the lemmas above
give. -/
theorem errorKindsByCommand : Obligations.ErrorKindsByCommand := by
  unfold Obligations.ErrorKindsByCommand
  intro i s t h herr
  rcases exec_cases h with ⟨e, hr, rfl⟩ | ⟨o, staged, -, rfl⟩
  case inr => exact nomatch herr
  obtain ⟨hrow, hwrapped⟩ := cmdResult_error_kind hr
  obtain ⟨hsub, hspan, hbound, hslice, hdecode, hstage⟩ := cmdResult_error hr
  have h2 : kindCode e.kind = 0x02 ↔ e.kind = .invalidCharacter := kindCode_eq_iff rfl
  have h3 : kindCode e.kind = 0x03 ↔ e.kind = .notEnoughBytes := kindCode_eq_iff rfl
  have h4 : kindCode e.kind = 0x04 ↔ e.kind = .lengthTooLarge := kindCode_eq_iff rfl
  have h6 : kindCode e.kind = 0x06 ↔ e.kind = .invalidCrc := kindCode_eq_iff rfl
  have h8 : kindCode e.kind = 0x08 ↔ e.kind = .badWindow := kindCode_eq_iff rfl
  have hinfo (hk : e.kind = .lengthTooLarge) : (BitVec.ofNat 64 e.info0).toNat = e.info0 :=
    Nat.mod_eq_of_lt (by have := hbound hk; omega)
  simp only [State.noteUnwritten_errReg, State.raise_errReg, State.noteUnwritten_errInfo0, State.raise_errInfo0,
    errKindField_errWord, errWrappedField_errWord, errSubField_errWord, errStageField_errWord, ne_eq, h2, h3, h4,
    h6, h8]
  refine ⟨List.mem_map_of_mem (f := fun p => (kindCode p.1, p.2)) hrow, hwrapped, fun hs => ?_,
    fun hs hk => ?_, hstage, hslice, hdecode⟩
  · obtain ⟨hk, hne, hlim⟩ := hsub hs
    exact ⟨hk, hne, by rwa [hinfo hk]⟩
  · rw [hinfo hk]
    exact hspan hs hk

end Sys2Proof.Machine

/-! Reset, and the rewinding of the walk (70_reset_and_hazards.md R240, R249). -/

namespace Sys2Proof.Machine

/-! ## Reset (70_reset_and_hazards.md R240) -/

/-- Settles O51: reset is one host action, with power-on's values in every register. -/
theorem resetRestoresEveryRegister : Obligations.ResetRestoresEveryRegister := by
  unfold Obligations.ResetRestoresEveryRegister
  intro s rest hp
  exact ⟨s.draws + 1, step_cons hp⟩

/-! ## Rewinding a NEXT (70_reset_and_hazards.md R249) -/

/-- A NEXT that succeeds before the end of the stream found, in a window that fits, a record of a span `n` no longer
than the window, and advanced past it (42_frame.md R147). -/
theorem exists_span_of_exec_next {s t : State} (h : exec .next s = .next t) (hok : t.status.ok = true)
    (heos : t.status.eos = false) : ∃ n, s.windowFits ∧ 12 ≤ n ∧ n ≤ s.avail.toNat ∧
      t.span = BitVec.ofNat 32 n ∧ t.dataOff = BitVec.ofNat 32 (s.base.toNat + 8) ∧
      t.base = BitVec.ofNat 32 (s.base.toNat + n) ∧ t.avail = BitVec.ofNat 32 (s.avail.toNat - n) := by
  rcases exec_cases h with ⟨e, -, rfl⟩ | ⟨o, staged, hr, rfl⟩
  · exact nomatch hok
  rcases nextResult_cases s with ⟨-, he⟩ | ⟨-, -, he⟩ | ⟨_, _, -, -, -, he⟩ | ⟨_, _, _, _, _, -, -, -, -, he⟩ |
    ⟨_, _, _, _, f, hf, -, hc, hd, he⟩ <;> rw [cmdResult, he] at hr <;> cases hr
  · exact nomatch heos
  · obtain ⟨-, -, hle⟩ := sliceCore_ok hc
    obtain ⟨-, rfl, hspan, -⟩ := decodeCore_ok hd
    exact ⟨f.span, hf, by omega, hle, rfl, rfl, rfl, rfl⟩

/-- Settles O44: inside a window that fits, neither BASE + 8 nor BASE + SPAN wraps. -/
theorem nextCanBeRewound : Obligations.NextCanBeRewound := by
  unfold Obligations.NextCanBeRewound
  intro s t h hok heos
  obtain ⟨n, hf, h12, hle, hspan, hoff, hbase, havail⟩ := exists_span_of_exec_next h hok heos
  have hend : s.base.toNat + s.avail.toNat < 2 ^ 32 := Nat.lt_of_le_of_lt hf s.params.ibufSize.isLt
  simp only [hspan, hoff, hbase, havail, BitVec.toNat_ofNat]
  omega

end Sys2Proof.Machine
